-- ==== Sys2Proof/Word.lean ====
section
/-!
DEFINITION. The two word types of the block: a byte of the input buffer (00_scope.md R6, D24) and a
16-bit pattern (the payload of format FB16, 30_encoding.md R55).
-/

namespace Sys2Proof

/-- A byte: 8 bits, unsigned 0..255 (00_scope.md R6, 92 D24). -/
abbrev Byte := BitVec 8

/-- A 16-bit pattern `v[15:0]` (30_encoding.md R55; 41_field_decoders.md R86). -/
abbrev Half := BitVec 16

end Sys2Proof
end

