-- ==== Sys2Proof/Config.lean ====
section
/-!
DEFINITION. What an implementation fixes (00_scope.md R7, R8): the shape of the Layout Table, the open
parameter `MAX_LEN`, the shape of a floating-point format `FLOAT_FMT`; and the free values of the
registers the spec calls unspecified. The contents of `LAYOUT` are a field of State (10_state.md R17),
so every statement over all states is a statement over every `LAYOUT`; `EXTD_TAG` and `L4` are read
off it (Decode.lean).
-/

namespace Sys2Proof

/-- The decoders a layout entry can name (00_scope.md R7). -/
inductive Decoder where
  | temp | co2 | bat | occ | extd | noop
  deriving DecidableEq, Repr

/-- One entry `(id, size, dec)` of the Layout Table (00_scope.md R7, R15); `size` does not count the
tag byte (30_encoding.md R53). -/
structure Entry where
  id : Byte
  size : Nat
  dec : Decoder
  deriving DecidableEq, Repr

/-- The Layout Table: entries in table order, which is match priority (30_encoding.md R58). -/
abbrev Layout := List Entry

/-- `MAX_LEN`, the largest input length the block accepts: a natural number, or `none` for unbounded
(00_scope.md R8, 92 D3: OPEN). It has no body: a claim holds whatever it is. -/
opaque Config.maxLen : Option Nat

/-- Free value: what `err.kind` holds where the spec leaves it unspecified (70_reset R151, 92 D20). -/
opaque Config.freeErrKind : Nat → BitVec 2

/-- Free value: what `err.index` holds where the spec leaves it unspecified (70_reset R151, 92 D20). -/
opaque Config.freeErrIndex : Nat → Nat

/-- Free value: what `err.byte` holds where the spec leaves it unspecified (70_reset R151, 92 D20). -/
opaque Config.freeErrByte : Nat → Byte

/-- Free value: what `err.size` holds where the spec gives it no value: after a request (70_reset
R151), and after an error other than `TruncatedPayload` (60_exceptions R132, R134, R138). -/
opaque Config.freeErrSize : Nat → Nat

/-- A binary floating-point format: the parameter `FLOAT_FMT` of the host-side views (00_scope.md R8,
92 D17: OPEN). `precision` counts the significand's bits with the leading one, `minExp` and `maxExp`
are the exponents of the smallest and the largest normal binade. -/
structure FloatFmt where
  precision : Nat
  minExp : Int
  maxExp : Int
  deriving DecidableEq, Repr

end Sys2Proof
end

