-- ==== Sys2Proof/Machine/Operands.lean ====
section
/-!
DEFINITION. Operand assembly (30_encoding.md R56): `U16BE`, `S16BE` with the sign-extend decoder SEXT16,
and the two enumerations of `ENUM8`. `SKIP` assembles nothing.
-/

namespace Sys2Proof.Machine

/-- The three occupancy states (10_state.md R30). -/
inductive Occupancy where
  | noBody | pendingOrPir | occupiedOrHeat
  deriving DecidableEq, Repr

/-- `be16`: the first byte is the more significant (20_memory.md R42). -/
def be16 (p0 p1 : Byte) : Half := p0 ++ p1

/-- Bits 15..8 of an FB16 value, its first payload byte (30_encoding.md R55). -/
def highByte (v : Half) : Byte := v.extractLsb' 8 8

/-- Bits 7..0 of an FB16 value, its second payload byte (30_encoding.md R55). -/
def lowByte (v : Half) : Byte := v.extractLsb' 0 8

/-- SEXT16, the fixed-point sign-extend decoder, in its normative form (41_field_decoders.md R86). -/
def sext16 (v : Half) : Int :=
  if v.getLsbD 15 = false then (v.toNat : Int) else (v.toNat : Int) - 65536

/-- The 2-bit code of an occupancy state (10_state.md R30, D19). -/
def Occupancy.code : Occupancy → BitVec 2
  | .noBody => 0
  | .pendingOrPir => 1
  | .occupiedOrHeat => 2

/-- The state a 2-bit code names; code 3 names none (10_state.md R30, 93 U16). -/
def Occupancy.ofCode (c : BitVec 2) : Option Occupancy :=
  match c.toNat with
  | 0 => some .noBody
  | 1 => some .pendingOrPir
  | 2 => some .occupiedOrHeat
  | _ => none

/-- The occupancy a payload byte selects; any other byte is illegal (41_field_decoders.md R90). -/
def occupancyOf (b : Byte) : Option Occupancy :=
  match b.toNat with
  | 0 => some .noBody
  | 1 => some .pendingOrPir
  | 2 => some .occupiedOrHeat
  | _ => none

/-- The contact state a payload byte selects; any other byte is illegal (41_field_decoders.md R91). -/
def contactOf (b : Byte) : Option Bool :=
  match b.toNat with
  | 0 => some false
  | 1 => some true
  | _ => none

end Sys2Proof.Machine
end

