-- ==== Sys2Proof/Syntax.lean ====
section
/-!
DEFINITION. The TLV records as syntax: one constructor per row of spec/opcode_table.json, in its order.
A record carries its payload operand (30_encoding.md R55, R67): a 16-bit pattern for format FB16, a
byte for FB8, the raw payload bytes for FSKIP(n), whose number the layout entry fixes (WellFormed).
The tags and sizes named below are the reference instance's (93 LAYOUT_REF).
-/

namespace Sys2Proof

/-- A TLV record, the "instruction" of the block (00_scope.md R15). -/
inductive Instr where
  /-- TEMP: temperature in tenths, `01 v[15:8] v[7:0]` (R87). -/
  | temp (v : Half)
  /-- NOP_02: no-op tag 0x02, reference size 1 (R94). -/
  | nop02 (payload : List Byte)
  /-- NOP_03: no-op tag 0x03, reference size 3 (R95). -/
  | nop03 (payload : List Byte)
  /-- LIGHT: light, no-op, `04 b1 .. bL4` (R93). -/
  | light (payload : List Byte)
  /-- OCC: occupancy, `05 b` (R90). -/
  | occ (b : Byte)
  /-- CO2: CO2 in ppm, `06 v[15:8] v[7:0]` (R88). -/
  | co2 (v : Half)
  /-- BAT: battery in mV, `07 v[15:8] v[7:0]` (R89). -/
  | bat (v : Half)
  /-- NOP_08: no-op tag 0x08, reference size 2 (R96). -/
  | nop08 (payload : List Byte)
  /-- NOP_09: no-op tag 0x09, reference size 6 (R97). -/
  | nop09 (payload : List Byte)
  /-- NOP_0A: no-op tag 0x0A, reference size 2 (R98). -/
  | nop0A (payload : List Byte)
  /-- NOP_0B: no-op tag 0x0B, reference size 4 (R99). -/
  | nop0B (payload : List Byte)
  /-- NOP_0C: no-op tag 0x0C, reference size 2 (R100). -/
  | nop0C (payload : List Byte)
  /-- EXTD: external digital contact, `EXTD_TAG b` (R91). -/
  | extd (b : Byte)
  /-- NOP_0E: no-op tag 0x0E, reference size 2 (R101). -/
  | nop0E (payload : List Byte)
  /-- NOP_0F: no-op tag 0x0F, reference size 1 (R102). -/
  | nop0F (payload : List Byte)
  /-- NOP_10: no-op tag 0x10, reference size 4 (R103). -/
  | nop10 (payload : List Byte)
  /-- NOP_11: no-op tag 0x11, reference size 1 (R104). -/
  | nop11 (payload : List Byte)
  /-- NOP_12: no-op tag 0x12, reference size 1 (R105). -/
  | nop12 (payload : List Byte)
  /-- NOP_13: no-op tag 0x13, reference size 65 (R106). -/
  | nop13 (payload : List Byte)
  /-- NOP_14: no-op tag 0x14, reference size 4 (R107). -/
  | nop14 (payload : List Byte)
  /-- NOP_15: no-op tag 0x15, reference size 2 (R108). -/
  | nop15 (payload : List Byte)
  /-- NOP_16: no-op tag 0x16, reference size 2 (R109). -/
  | nop16 (payload : List Byte)
  /-- NOP_17: no-op tag 0x17, reference size 4 (R110). -/
  | nop17 (payload : List Byte)
  /-- NOP_18: no-op tag 0x18, reference size 2 (R111). -/
  | nop18 (payload : List Byte)
  /-- NOP_19: no-op tag 0x19, reference size 2 (R112). -/
  | nop19 (payload : List Byte)
  /-- NOP_1A: no-op tag 0x1A, reference size 1 (R113). -/
  | nop1A (payload : List Byte)
  /-- NOP_1B: no-op tag 0x1B, reference size 4 (R114). -/
  | nop1B (payload : List Byte)
  /-- NOP_1C: no-op tag 0x1C, reference size 2 (R115). -/
  | nop1C (payload : List Byte)
  /-- NOP_3D: no-op tag 0x3D, reference size 4 (R116). -/
  | nop3D (payload : List Byte)
  deriving DecidableEq, Repr

end Sys2Proof
end

