-- ==== Sys2Proof/WellFormed.lean ====
section
/-!
DEFINITION. Well-formedness: which Layout Tables are admissible (30_encoding.md R57), and which records
are records of a given table (30_encoding.md R53, R59). Both are Bool checks.
-/

namespace Sys2Proof

/-- 30_encoding.md R57 item 8: decoder `d` serves exactly one entry. -/
def Layout.servesOnce (L : Layout) (d : Decoder) : Bool :=
  (L.filter (fun e => e.dec = d)).length = 1

/-- 30_encoding.md R57 item 9, with the entries of items 2 to 5 and 7: an entry is a no-op, or it is
one of the entries the document fixes, or it is the external-digital entry of size 1. -/
def Entry.fixedOrNoop (e : Entry) : Bool :=
  e.dec = .noop || e = ⟨0x01, 2, .temp⟩ || e = ⟨0x05, 1, .occ⟩ || e = ⟨0x06, 2, .co2⟩ ||
    e = ⟨0x07, 2, .bat⟩ || (e.dec = .extd && e.size = 1)

/-- The admissible Layout Tables: the eleven constraints of 30_encoding.md R57, in its order. -/
def Layout.admissible (L : Layout) : Bool :=
  L.length = 29 &&
  L.contains ⟨0x01, 2, .temp⟩ &&
  L.contains ⟨0x05, 1, .occ⟩ &&
  L.contains ⟨0x06, 2, .co2⟩ &&
  L.contains ⟨0x07, 2, .bat⟩ &&
  L.any (fun e => e.id = 0x04 && e.dec = .noop) &&
  L.any (fun e => e.dec = .extd && e.size = 1) &&
  (L.servesOnce .temp && L.servesOnce .co2 && L.servesOnce .bat && L.servesOnce .occ &&
    L.servesOnce .extd) &&
  L.all Entry.fixedOrNoop &&
  L.all (fun e => e.id ≠ 0x20) &&
  decide (L.map Entry.id).Nodup

/-- Record `i` is a record of table `L` (30_encoding.md R53, R59): its tag has an entry with its
decoder, and its payload has that entry's size. -/
def Instr.wellFormed (L : Layout) : Instr → Bool
  | .temp _ => L.contains ⟨0x01, 2, .temp⟩
  | .nop02 payload => L.contains ⟨0x02, payload.length, .noop⟩
  | .nop03 payload => L.contains ⟨0x03, payload.length, .noop⟩
  | .light payload => L.contains ⟨0x04, payload.length, .noop⟩
  | .occ _ => L.contains ⟨0x05, 1, .occ⟩
  | .co2 _ => L.contains ⟨0x06, 2, .co2⟩
  | .bat _ => L.contains ⟨0x07, 2, .bat⟩
  | .nop08 payload => L.contains ⟨0x08, payload.length, .noop⟩
  | .nop09 payload => L.contains ⟨0x09, payload.length, .noop⟩
  | .nop0A payload => L.contains ⟨0x0A, payload.length, .noop⟩
  | .nop0B payload => L.contains ⟨0x0B, payload.length, .noop⟩
  | .nop0C payload => L.contains ⟨0x0C, payload.length, .noop⟩
  | .extd _ => L.any (fun e => e.dec = .extd && e.size = 1)
  | .nop0E payload => L.contains ⟨0x0E, payload.length, .noop⟩
  | .nop0F payload => L.contains ⟨0x0F, payload.length, .noop⟩
  | .nop10 payload => L.contains ⟨0x10, payload.length, .noop⟩
  | .nop11 payload => L.contains ⟨0x11, payload.length, .noop⟩
  | .nop12 payload => L.contains ⟨0x12, payload.length, .noop⟩
  | .nop13 payload => L.contains ⟨0x13, payload.length, .noop⟩
  | .nop14 payload => L.contains ⟨0x14, payload.length, .noop⟩
  | .nop15 payload => L.contains ⟨0x15, payload.length, .noop⟩
  | .nop16 payload => L.contains ⟨0x16, payload.length, .noop⟩
  | .nop17 payload => L.contains ⟨0x17, payload.length, .noop⟩
  | .nop18 payload => L.contains ⟨0x18, payload.length, .noop⟩
  | .nop19 payload => L.contains ⟨0x19, payload.length, .noop⟩
  | .nop1A payload => L.contains ⟨0x1A, payload.length, .noop⟩
  | .nop1B payload => L.contains ⟨0x1B, payload.length, .noop⟩
  | .nop1C payload => L.contains ⟨0x1C, payload.length, .noop⟩
  | .nop3D payload => L.contains ⟨0x3D, payload.length, .noop⟩

end Sys2Proof
end

