-- ==== Sys2Proof/Decode.lean ====
section
/-!
DEFINITION. Decoding: the reference Layout Table, its lookup, the record an entry and its payload spell,
the decoder of a byte stream (total; it rejects by name) and, after it, the encoder. Both follow
30_encoding.md R53 to R65; the Layout Table is an argument throughout (40_dispatch.md R83).
-/

namespace Sys2Proof

open Machine (be16 highByte lowByte)

/-- The identifier of the external-digital tag in the reference instance (00_scope.md R8).
PRESUMED, unsafe: general knowledge, not in the source (93 G1; notes/assumptions/1.md). -/
def refExtdTag : Byte := 0x0D

/-- The reference instance `LAYOUT_REF` (93 section 3), in increasing id order.
PRESUMED, unsafe: all but the entries 0x01, 0x05, 0x06, 0x07, and the id and decoder of 0x04, is
general knowledge, not in the source (93 G1; notes/assumptions/1.md). -/
def layoutRef : Layout :=
  [⟨0x01, 2, .temp⟩, ⟨0x02, 1, .noop⟩, ⟨0x03, 3, .noop⟩, ⟨0x04, 2, .noop⟩, ⟨0x05, 1, .occ⟩,
   ⟨0x06, 2, .co2⟩, ⟨0x07, 2, .bat⟩, ⟨0x08, 2, .noop⟩, ⟨0x09, 6, .noop⟩, ⟨0x0A, 2, .noop⟩,
   ⟨0x0B, 4, .noop⟩, ⟨0x0C, 2, .noop⟩, ⟨refExtdTag, 1, .extd⟩, ⟨0x0E, 2, .noop⟩, ⟨0x0F, 1, .noop⟩,
   ⟨0x10, 4, .noop⟩, ⟨0x11, 1, .noop⟩, ⟨0x12, 1, .noop⟩, ⟨0x13, 65, .noop⟩, ⟨0x14, 4, .noop⟩,
   ⟨0x15, 2, .noop⟩, ⟨0x16, 2, .noop⟩, ⟨0x17, 4, .noop⟩, ⟨0x18, 2, .noop⟩, ⟨0x19, 2, .noop⟩,
   ⟨0x1A, 1, .noop⟩, ⟨0x1B, 4, .noop⟩, ⟨0x1C, 2, .noop⟩, ⟨0x3D, 4, .noop⟩]

/-- `lookup`: the first entry in table order whose identifier is `t` (40_dispatch.md R70, 30_encoding.md
R58). -/
def Layout.lookup : Layout → Byte → Option Entry
  | [], _ => none
  | e :: L, t => if e.id = t then some e else Layout.lookup L t

/-- `EXTD_TAG`: the identifier of the external-digital entry (00_scope.md R8). A table without one has
no such record; the reference value stands in, and no well-formed record meets it. -/
def Layout.extdTag : Layout → Byte
  | [] => refExtdTag
  | e :: L => if e.dec = .extd then e.id else Layout.extdTag L

/-- `L4`: the payload size of tag 0x04 (00_scope.md R8, 41_field_decoders.md R93). -/
def Layout.lightSize (L : Layout) : Option Nat := (L.lookup 0x04).map Entry.size

/-- The table's row of a no-op identifier: the constructor of Instr that opcode_table.json gives it
(41_field_decoders.md R93 to R116). A no-op entry with another identifier has no row. -/
def noopRow (id : Byte) (payload : List Byte) : Option Instr :=
  match id.toNat with
  | 0x02 => some (.nop02 payload)
  | 0x03 => some (.nop03 payload)
  | 0x04 => some (.light payload)
  | 0x08 => some (.nop08 payload)
  | 0x09 => some (.nop09 payload)
  | 0x0A => some (.nop0A payload)
  | 0x0B => some (.nop0B payload)
  | 0x0C => some (.nop0C payload)
  | 0x0E => some (.nop0E payload)
  | 0x0F => some (.nop0F payload)
  | 0x10 => some (.nop10 payload)
  | 0x11 => some (.nop11 payload)
  | 0x12 => some (.nop12 payload)
  | 0x13 => some (.nop13 payload)
  | 0x14 => some (.nop14 payload)
  | 0x15 => some (.nop15 payload)
  | 0x16 => some (.nop16 payload)
  | 0x17 => some (.nop17 payload)
  | 0x18 => some (.nop18 payload)
  | 0x19 => some (.nop19 payload)
  | 0x1A => some (.nop1A payload)
  | 0x1B => some (.nop1B payload)
  | 0x1C => some (.nop1C payload)
  | 0x3D => some (.nop3D payload)
  | _ => none

/-- What an entry and the payload bytes of its record spell. -/
inductive Spelled where
  /-- a record of a row of opcode_table.json -/
  | row (i : Instr)
  /-- a no-op record whose identifier has no row there: admissible tables may hold it (R57, R60) -/
  | otherNoop
  /-- the entry's size is not its decoder's: no admissible table holds it (R57 items 2 to 9) -/
  | misfit
  deriving DecidableEq, Repr

/-- Operand assembly by the entry's decoder (30_encoding.md R56). A no-op payload is carried as it
stands; its meaning never looks at it (41_field_decoders.md R92). -/
def Entry.spell (e : Entry) (payload : List Byte) : Spelled :=
  match e.dec, payload with
  | .temp, [p0, p1] => .row (.temp (be16 p0 p1))
  | .co2, [p0, p1] => .row (.co2 (be16 p0 p1))
  | .bat, [p0, p1] => .row (.bat (be16 p0 p1))
  | .occ, [b] => .row (.occ b)
  | .extd, [b] => .row (.extd b)
  | .noop, p =>
    match noopRow e.id p with
    | some i => .row i
    | none => .otherNoop
  | _, _ => .misfit

/-- What the decoder answers on a byte stream: the first record and the bytes after it, or the name of
the reason there is none. -/
inductive Decoded where
  /-- a record of a row of opcode_table.json, and the bytes after it -/
  | record (i : Instr) (rest : List Byte)
  /-- a no-op record whose identifier has no row there, and the bytes after it -/
  | skip (tag : Byte) (size : Nat) (rest : List Byte)
  /-- the stream is empty: no tag byte -/
  | empty
  /-- no entry has this tag (30_encoding.md R61) -/
  | unrecognizedTag (tag : Byte)
  /-- the payload would run past the end of the stream (30_encoding.md R63) -/
  | truncated (tag : Byte) (size : Nat)
  /-- the table is not admissible at this tag -/
  | misfit (tag : Byte)
  deriving DecidableEq, Repr

/-- Decoding the first record of a byte stream under table `L` (30_encoding.md R53, R61, R63, R65). -/
def decode (L : Layout) : List Byte → Decoded
  | [] => .empty
  | t :: bytes =>
    match L.lookup t with
    | none => .unrecognizedTag t
    | some e =>
      if e.size ≤ bytes.length then
        match e.spell (bytes.take e.size) with
        | .row i => .record i (bytes.drop e.size)
        | .otherNoop => .skip t e.size (bytes.drop e.size)
        | .misfit => .misfit t
      else .truncated t e.size

/-- The payload bytes of a record, in stream order (30_encoding.md R55, R67). -/
def Instr.payload : Instr → List Byte
  | .temp v => [highByte v, lowByte v]
  | .nop02 payload => payload
  | .nop03 payload => payload
  | .light payload => payload
  | .occ b => [b]
  | .co2 v => [highByte v, lowByte v]
  | .bat v => [highByte v, lowByte v]
  | .nop08 payload => payload
  | .nop09 payload => payload
  | .nop0A payload => payload
  | .nop0B payload => payload
  | .nop0C payload => payload
  | .extd b => [b]
  | .nop0E payload => payload
  | .nop0F payload => payload
  | .nop10 payload => payload
  | .nop11 payload => payload
  | .nop12 payload => payload
  | .nop13 payload => payload
  | .nop14 payload => payload
  | .nop15 payload => payload
  | .nop16 payload => payload
  | .nop17 payload => payload
  | .nop18 payload => payload
  | .nop19 payload => payload
  | .nop1A payload => payload
  | .nop1B payload => payload
  | .nop1C payload => payload
  | .nop3D payload => payload

/-- The tag byte of a record under table `L` (30_encoding.md R59, R67). -/
def Instr.tag (L : Layout) : Instr → Byte
  | .temp _ => 0x01
  | .nop02 _ => 0x02
  | .nop03 _ => 0x03
  | .light _ => 0x04
  | .occ _ => 0x05
  | .co2 _ => 0x06
  | .bat _ => 0x07
  | .nop08 _ => 0x08
  | .nop09 _ => 0x09
  | .nop0A _ => 0x0A
  | .nop0B _ => 0x0B
  | .nop0C _ => 0x0C
  | .extd _ => L.extdTag
  | .nop0E _ => 0x0E
  | .nop0F _ => 0x0F
  | .nop10 _ => 0x10
  | .nop11 _ => 0x11
  | .nop12 _ => 0x12
  | .nop13 _ => 0x13
  | .nop14 _ => 0x14
  | .nop15 _ => 0x15
  | .nop16 _ => 0x16
  | .nop17 _ => 0x17
  | .nop18 _ => 0x18
  | .nop19 _ => 0x19
  | .nop1A _ => 0x1A
  | .nop1B _ => 0x1B
  | .nop1C _ => 0x1C
  | .nop3D _ => 0x3D

/-- The number of payload bytes of a record (30_encoding.md R53: `size`, without the tag byte). -/
def Instr.size (i : Instr) : Nat := i.payload.length

/-- Whether the decoder of a record is the no-op decoder (41_field_decoders.md R92). -/
def Instr.isNoop : Instr → Bool
  | .temp _ => false
  | .nop02 _ => true
  | .nop03 _ => true
  | .light _ => true
  | .occ _ => false
  | .co2 _ => false
  | .bat _ => false
  | .nop08 _ => true
  | .nop09 _ => true
  | .nop0A _ => true
  | .nop0B _ => true
  | .nop0C _ => true
  | .extd _ => false
  | .nop0E _ => true
  | .nop0F _ => true
  | .nop10 _ => true
  | .nop11 _ => true
  | .nop12 _ => true
  | .nop13 _ => true
  | .nop14 _ => true
  | .nop15 _ => true
  | .nop16 _ => true
  | .nop17 _ => true
  | .nop18 _ => true
  | .nop19 _ => true
  | .nop1A _ => true
  | .nop1B _ => true
  | .nop1C _ => true
  | .nop3D _ => true

/-- Encoding: the tag byte, then the payload bytes (30_encoding.md R53, R67). -/
def encode (L : Layout) (i : Instr) : List Byte := i.tag L :: i.payload

/-- The `n` low bytes of `w`, the least significant first. -/
def littleBytes : Nat → Nat → List Byte
  | 0, _ => []
  | n + 1, w => BitVec.ofNat 8 w :: littleBytes n (w / 256)

/-- The longest record of the reference instance: the tag and 65 bytes (41_field_decoders.md R106). -/
def longestRecord : Nat := 66

/-- The stream bytes of an instruction whose bits opcode_table.json numbers `w` of `nbits`, with zeros
up to the longest record. Byte 0, the tag, is `w`'s low byte, and the next bytes count on from it. The
one exception is the table's EXTD row, the only row of 16 bits: there the reader of the table numbered
the two bytes as one number, the tag in bits 15..8 and the payload byte in bits 7..0 (98_reader.md:
where a row's bits and the spec's words differ, the spec's words are right), so the tag is moved to
where 30_encoding.md R55 puts it (notes/assumptions/9.md). -/
def tableBytes (nbits w : Nat) : List Byte :=
  let v := w % 2 ^ nbits
  if nbits = 16 ∧ v / 256 = refExtdTag.toNat then
    refExtdTag :: BitVec.ofNat 8 v :: littleBytes (longestRecord - 2) 0
  else littleBytes longestRecord v

/-- The instruction the decoder reads, under the reference table, from an instruction whose bits are
`w`, numbered as opcode_table.json numbers them. -/
def decodeTableWord (nbits w : Nat) : Option Instr :=
  match decode layoutRef (tableBytes nbits w) with
  | .record i _ => some i
  | _ => none

end Sys2Proof
end

