-- ==== Sys2Proof/Machine/State.lean ====
section
/-!
DEFINITION. The state of one parser instance (10_state.md R17): plain data, every piece the spec gives
the block, with the value after power-on reset; the faults and the refusals.
-/

namespace Sys2Proof.Machine

/-- The status register (10_state.md R23). -/
inductive Status where
  /-- no decode has been requested since reset -/
  | idle
  /-- a decode is in progress -/
  | busy
  /-- the last decode succeeded and the record is its result -/
  | doneOk
  /-- the last decode failed and the error registers hold the error -/
  | doneErr
  deriving DecidableEq, Repr

/-- The three error kinds (60_exceptions.md R131). -/
inductive ErrKind where
  | unrecognizedTag | truncatedPayload | invalidEnumValue
  deriving DecidableEq, Repr

/-- The error registers `err = (kind, index, byte, size)` (10_state.md R25). `kind` is the 2-bit code
of 60_exceptions.md R135. -/
structure ErrRegs where
  kind : BitVec 2
  index : Nat
  byte : Byte
  size : Nat
  deriving DecidableEq, Repr

/-- The Decoded Record registers (10_state.md R27 to R31). A field is `none` when its presence flag
(R21) is 0, and `some v` when the flag is 1 and its value register holds `v` (R38, 92 D28;
notes/assumptions/6.md). -/
structure Record where
  /-- the 16 bits of the signed register, tenths of a degree (R27) -/
  temperature : Option Half
  /-- ppm (R28) -/
  co2 : Option Half
  /-- mV (R29) -/
  batteryMv : Option Half
  /-- the 2-bit code of the occupancy state (R30) -/
  occupancy : Option (BitVec 2)
  /-- the contact state (R31) -/
  externalDigital : Option Bool
  deriving DecidableEq, Repr

/-- The freshly constructed record: every field absent (10_state.md R37). -/
def Record.empty : Record := ⟨none, none, none, none, none⟩

/-- The input buffer: (index, byte) pairs, indices strictly rising. An unlisted index has no byte
(20_memory.md R39). -/
abbrev Memory := List Host.Cell

/-- The state tuple `S = (in, N, cur, rec, status, err, LAYOUT)` (10_state.md R17), and `draws`, the
model's own counter of the free values drawn (notes/assumptions/4.md). -/
structure State where
  /-- `in`, the input buffer (20_memory.md R39) -/
  mem : Memory
  /-- `N`, its length -/
  len : Nat
  /-- `cur`, the cursor: the block's program counter (R19) -/
  cur : Nat
  /-- `rec`, the Decoded Record (R27 to R31) -/
  record : Record
  /-- `status` (R23) -/
  status : Status
  /-- `err` (R25) -/
  err : ErrRegs
  /-- `LAYOUT`, which nothing writes (R26) -/
  layout : Layout
  /-- the model's own: how many free values have been drawn -/
  draws : Nat
  deriving DecidableEq, Repr

/-- What stops the machine, or a host's read of it, as a fault. No step from a state that meets
`State.Inv` (Safety.lean) answers one; the others are answers to a host's read. -/
inductive Fault where
  /-- Raised by a step that would read the buffer where it holds no byte (20_memory.md R39). Safe: no
  rule reaches it (R40). -/
  | bufferIndex (index : Nat)
  /-- Raised by a host's read of the record or of a view while `status` is not `DONE_OK`
  (70_reset R157, 42_record_views R130). Safe. -/
  | recordNotReadable
  /-- Raised by a host's read of the error registers while `status` is not `DONE_ERR` (10_state R25,
  70_reset R157). Safe. -/
  | errNotReadable
  /-- Raised by a host's read of `err.size` for a kind other than `TruncatedPayload` (10_state R25).
  Safe. -/
  | errSizeNotReadable
  /-- Raised by a host's read of the value register of an absent field (92 D28, 93 U6). Safe. -/
  | absentField
  /-- Raised by a host's read of an occupancy register that holds code 3, which is never written
  (10_state R30, 93 U16). Safe. -/
  | occupancyCode
  /-- Raised by a host's read of an error register that holds kind code 0, which is never written
  (60_exceptions R135). Safe. -/
  | errKindCode
  deriving DecidableEq, Repr

/-- What the model gives no meaning. -/
inductive Refusal where
  /-- Raised by no arm: every row of opcode_table.json has its meaning. Safe. -/
  | notModelled (mnemonic : String)
  /-- Raised by a step whose tag has an entry with a size that is not its decoder's. Safe: 30_encoding
  R57 excludes such a table, and the spec gives it no meaning (notes/assumptions/12.md). -/
  | inadmissibleEntry (tag : Byte)
  /-- Raised by a host's request while `status` is `BUSY`: not admitted (70_reset R158). Safe. -/
  | requestWhileBusy
  /-- Raised by a host's request of more than `MAX_LEN` bytes: not admitted (92 D3). Safe. -/
  | requestTooLong
  deriving DecidableEq, Repr

/-- What a step, or the meaning of a record, answers. -/
abbrev Result := Host.Outcome State Fault Refusal

/-- The error registers after power-on reset. DESIGN CHOICE, unsafe: the spec leaves them unspecified
(10_state.md R37; notes/assumptions/3.md). -/
def ErrRegs.reset : ErrRegs := ⟨0, 0, 0, 0⟩

/-- The state after power-on reset (10_state.md R37, 70_reset R152). DESIGN CHOICE, unsafe: the empty
buffer, the error registers and `draws` (notes/assumptions/2.md, 3.md, 4.md). PRESUMED, unsafe: the
contents of `LAYOUT` (notes/assumptions/1.md). -/
def State.reset : State where
  mem := []
  len := 0
  cur := 0
  record := .empty
  status := .idle
  err := .reset
  layout := layoutRef
  draws := 0

end Sys2Proof.Machine
end

