-- ==== Sys2Proof/Machine/Flags.lean ====
section
/-!
DEFINITION. The flags and the codes a host reads. The block's only flags are the presence flags of the
five record fields (10_state.md R21); it has no condition codes (R22). The codes are those of `status`
(R23) and of `err.kind` (60_exceptions.md R135).
-/

namespace Sys2Proof.Machine

/-- `temperature.valid` (10_state.md R21). -/
def Record.temperatureValid (r : Record) : Bool := r.temperature.isSome

/-- `co2.valid` (10_state.md R21). -/
def Record.co2Valid (r : Record) : Bool := r.co2.isSome

/-- `battery_mv.valid` (10_state.md R21). -/
def Record.batteryValid (r : Record) : Bool := r.batteryMv.isSome

/-- `occupancy.valid` (10_state.md R21). -/
def Record.occupancyValid (r : Record) : Bool := r.occupancy.isSome

/-- `external_digital.valid` (10_state.md R21). -/
def Record.contactValid (r : Record) : Bool := r.externalDigital.isSome

/-- The code of a status (10_state.md R23). -/
def Status.code : Status → BitVec 2
  | .idle => 0
  | .busy => 1
  | .doneOk => 2
  | .doneErr => 3

/-- The code of an error kind (60_exceptions.md R135). -/
def ErrKind.code : ErrKind → BitVec 2
  | .unrecognizedTag => 1
  | .truncatedPayload => 2
  | .invalidEnumValue => 3

/-- The kind a code names; code 0 is never written (60_exceptions.md R135). -/
def ErrKind.ofCode (c : BitVec 2) : Option ErrKind :=
  match c.toNat with
  | 1 => some .unrecognizedTag
  | 2 => some .truncatedPayload
  | 3 => some .invalidEnumValue
  | _ => none

end Sys2Proof.Machine
end

