-- ==== Sys2Proof/Machine/Ops.lean ====
section
/-!
DEFINITION. The named operations over the input buffer and the registers, and raising an error: the
block's only exception entry, written once. There is no return from an error (60_exceptions.md R140):
only a new request (Machine/HostInterface.lean) leaves `DONE_ERR`.
-/

namespace Sys2Proof.Machine

/-- The byte the buffer holds at an index; an unlisted index has none (20_memory.md R39). -/
def Memory.read : Memory → Nat → Option Byte
  | [], _ => none
  | c :: m, a => if c.1 = a then some c.2 else Memory.read m a

/-- The buffer that holds `bytes` from index `a` on. -/
def Memory.ofBytesFrom (a : Nat) : List Byte → Memory
  | [] => []
  | b :: bytes => (a, b) :: Memory.ofBytesFrom (a + 1) bytes

/-- The buffer of a request: indices `0..N-1` (20_memory.md R39). -/
def Memory.ofBytes (bytes : List Byte) : Memory := Memory.ofBytesFrom 0 bytes

/-- The canonical form: indices strictly rising. No cell can equal what an unlisted index reads as,
since an unlisted index has no byte. -/
def Memory.wf (m : Memory) : Bool := decide ((m.map Prod.fst).Pairwise (· < ·))

/-- `MemRead(a, 1)`, defined only for `a < N` (00_scope.md R12, 20_memory.md R39). -/
def State.memRead (s : State) (a : Nat) : Option Byte :=
  if a < s.len then s.mem.read a else none

/-- The `n` bytes from index `a` on, where the buffer holds them all. -/
def State.readSpan (s : State) (a : Nat) : Nat → Option (List Byte)
  | 0 => some []
  | n + 1 =>
    match s.memRead a with
    | none => none
    | some b =>
      match s.readSpan (a + 1) n with
      | none => none
      | some bytes => some (b :: bytes)

/-- The advance past a record: `cur <- cur + e.size + 1` (40_dispatch.md R76), without wrap (R19). -/
def State.advance (s : State) (size : Nat) : State := { s with cur := s.cur + size + 1 }

/-- The loop exit: `status <- DONE_OK` (40_dispatch.md R71). -/
def State.finish (s : State) : State := { s with status := .doneOk }

/-- Raising error `k` at `index` with `byte`, and `size` where the error has one (60_exceptions.md
R138): `status` and `err` are written, the record is discarded (DESIGN CHOICE: it becomes empty,
notes/assumptions/5.md), `cur` stays. Where the error has no size,
`err.size` becomes a free value (notes/assumptions/4.md). -/
def State.raise (s : State) (k : ErrKind) (index : Nat) (byte : Byte) (size : Option Nat) : State :=
  { s with
    status := .doneErr
    err := ⟨k.code, index, byte, size.getD (Config.freeErrSize s.draws)⟩
    record := .empty
    draws := s.draws + 1 }

/-- `rec.temperature <- some(t)`: the register takes the 16 bits of the signed value `t` (10_state.md
R27). -/
def State.setTemperature (s : State) (t : Int) : State :=
  { s with record := { s.record with temperature := some (BitVec.ofInt 16 t) } }

/-- `rec.co2 <- some(v)` (10_state.md R28). -/
def State.setCo2 (s : State) (v : Half) : State :=
  { s with record := { s.record with co2 := some v } }

/-- `rec.battery_mv <- some(v)` (10_state.md R29). -/
def State.setBattery (s : State) (v : Half) : State :=
  { s with record := { s.record with batteryMv := some v } }

/-- `rec.occupancy <- some(o)`: the register takes the state's code (10_state.md R30). -/
def State.setOccupancy (s : State) (o : Occupancy) : State :=
  { s with record := { s.record with occupancy := some o.code } }

/-- `rec.external_digital <- some(d)` (10_state.md R31). -/
def State.setContact (s : State) (d : Bool) : State :=
  { s with record := { s.record with externalDigital := some d } }

/-- A host's request, once admitted (70_reset R151): it latches `in` and `N`, sets `cur` to 0 and every
field to absent, leaves `err` unspecified (a free value, notes/assumptions/4.md) and sets `status` to
`BUSY`. -/
def State.latch (s : State) (bytes : List Byte) : State :=
  { s with
    mem := .ofBytes bytes
    len := bytes.length
    cur := 0
    record := .empty
    status := .busy
    err := ⟨Config.freeErrKind s.draws, Config.freeErrIndex s.draws, Config.freeErrByte s.draws,
      Config.freeErrSize s.draws⟩
    draws := s.draws + 1 }

end Sys2Proof.Machine
end

