-- ==== Sys2Proof/Machine/FieldDecoders.lean ====
section
/-!
DEFINITION. The meanings of the records that set a field (41_field_decoders.md section 3). Each is the
decoder's action followed by the step's advance or error (40_dispatch.md R74 to R76).
-/

namespace Sys2Proof.Machine

/-- TEMP (41_field_decoders.md R87): the payload goes through SEXT16 into `temperature`. -/
def execTemp (v : Half) (s : State) : Result := .next ((s.setTemperature (sext16 v)).advance 2)

/-- CO2 (41_field_decoders.md R88). -/
def execCo2 (v : Half) (s : State) : Result := .next ((s.setCo2 v).advance 2)

/-- BAT (41_field_decoders.md R89). -/
def execBat (v : Half) (s : State) : Result := .next ((s.setBattery v).advance 2)

/-- OCC (41_field_decoders.md R90): a legal byte selects the state; any other raises
`InvalidEnumValue` with the payload byte's index, and the cursor stays (40_dispatch.md R75, D6). -/
def execOcc (b : Byte) (s : State) : Result :=
  match occupancyOf b with
  | some o => .next ((s.setOccupancy o).advance 1)
  | none => .next (s.raise .invalidEnumValue (s.cur + 1) b none)

/-- EXTD (41_field_decoders.md R91): as OCC, with the contact's two legal bytes. -/
def execExtd (b : Byte) (s : State) : Result :=
  match contactOf b with
  | some d => .next ((s.setContact d).advance 1)
  | none => .next (s.raise .invalidEnumValue (s.cur + 1) b none)

end Sys2Proof.Machine
end

