-- ==== Sys2Proof/Machine/Noop.lean ====
section
/-!
DEFINITION. The meanings of the no-op records (41_field_decoders.md section 4): each consumes its
declared byte span and sets no field. No payload byte is looked at (R92, D25); only their number
counts. One definition per row, over `State.skip`.
-/

namespace Sys2Proof.Machine

/-- The no-op decoder and the step's advance (41_field_decoders.md R92, 40_dispatch.md R76). -/
def State.skip (s : State) (size : Nat) : State := s.advance size

/-- NOP_02 (41_field_decoders.md R94). -/
def execNop02 (payload : List Byte) (s : State) : Result := .next (s.skip payload.length)

/-- NOP_03 (41_field_decoders.md R95). -/
def execNop03 (payload : List Byte) (s : State) : Result := .next (s.skip payload.length)

/-- LIGHT (41_field_decoders.md R93). -/
def execLight (payload : List Byte) (s : State) : Result := .next (s.skip payload.length)

/-- NOP_08 (41_field_decoders.md R96). -/
def execNop08 (payload : List Byte) (s : State) : Result := .next (s.skip payload.length)

/-- NOP_09 (41_field_decoders.md R97). -/
def execNop09 (payload : List Byte) (s : State) : Result := .next (s.skip payload.length)

/-- NOP_0A (41_field_decoders.md R98). -/
def execNop0A (payload : List Byte) (s : State) : Result := .next (s.skip payload.length)

/-- NOP_0B (41_field_decoders.md R99). -/
def execNop0B (payload : List Byte) (s : State) : Result := .next (s.skip payload.length)

/-- NOP_0C (41_field_decoders.md R100). -/
def execNop0C (payload : List Byte) (s : State) : Result := .next (s.skip payload.length)

/-- NOP_0E (41_field_decoders.md R101). -/
def execNop0E (payload : List Byte) (s : State) : Result := .next (s.skip payload.length)

/-- NOP_0F (41_field_decoders.md R102). -/
def execNop0F (payload : List Byte) (s : State) : Result := .next (s.skip payload.length)

/-- NOP_10 (41_field_decoders.md R103). -/
def execNop10 (payload : List Byte) (s : State) : Result := .next (s.skip payload.length)

/-- NOP_11 (41_field_decoders.md R104). -/
def execNop11 (payload : List Byte) (s : State) : Result := .next (s.skip payload.length)

/-- NOP_12 (41_field_decoders.md R105). -/
def execNop12 (payload : List Byte) (s : State) : Result := .next (s.skip payload.length)

/-- NOP_13 (41_field_decoders.md R106). -/
def execNop13 (payload : List Byte) (s : State) : Result := .next (s.skip payload.length)

/-- NOP_14 (41_field_decoders.md R107). -/
def execNop14 (payload : List Byte) (s : State) : Result := .next (s.skip payload.length)

/-- NOP_15 (41_field_decoders.md R108). -/
def execNop15 (payload : List Byte) (s : State) : Result := .next (s.skip payload.length)

/-- NOP_16 (41_field_decoders.md R109). -/
def execNop16 (payload : List Byte) (s : State) : Result := .next (s.skip payload.length)

/-- NOP_17 (41_field_decoders.md R110). -/
def execNop17 (payload : List Byte) (s : State) : Result := .next (s.skip payload.length)

/-- NOP_18 (41_field_decoders.md R111). -/
def execNop18 (payload : List Byte) (s : State) : Result := .next (s.skip payload.length)

/-- NOP_19 (41_field_decoders.md R112). -/
def execNop19 (payload : List Byte) (s : State) : Result := .next (s.skip payload.length)

/-- NOP_1A (41_field_decoders.md R113). -/
def execNop1A (payload : List Byte) (s : State) : Result := .next (s.skip payload.length)

/-- NOP_1B (41_field_decoders.md R114). -/
def execNop1B (payload : List Byte) (s : State) : Result := .next (s.skip payload.length)

/-- NOP_1C (41_field_decoders.md R115). -/
def execNop1C (payload : List Byte) (s : State) : Result := .next (s.skip payload.length)

/-- NOP_3D (41_field_decoders.md R116). -/
def execNop3D (payload : List Byte) (s : State) : Result := .next (s.skip payload.length)

end Sys2Proof.Machine
end

