-- ==== Sys2Proof/Machine/Dispatch.lean ====
section
/-! DEFINITION. The dispatch: one arm per constructor of Instr, each one call of its meaning. -/

namespace Sys2Proof.Machine

def exec (i : Instr) (s : State) : Host.Outcome State Fault Refusal :=
  match i with
  | .temp v => Sys2Proof.Machine.execTemp v s
  | .nop02 payload => Sys2Proof.Machine.execNop02 payload s
  | .nop03 payload => Sys2Proof.Machine.execNop03 payload s
  | .light payload => Sys2Proof.Machine.execLight payload s
  | .occ b => Sys2Proof.Machine.execOcc b s
  | .co2 v => Sys2Proof.Machine.execCo2 v s
  | .bat v => Sys2Proof.Machine.execBat v s
  | .nop08 payload => Sys2Proof.Machine.execNop08 payload s
  | .nop09 payload => Sys2Proof.Machine.execNop09 payload s
  | .nop0A payload => Sys2Proof.Machine.execNop0A payload s
  | .nop0B payload => Sys2Proof.Machine.execNop0B payload s
  | .nop0C payload => Sys2Proof.Machine.execNop0C payload s
  | .extd b => Sys2Proof.Machine.execExtd b s
  | .nop0E payload => Sys2Proof.Machine.execNop0E payload s
  | .nop0F payload => Sys2Proof.Machine.execNop0F payload s
  | .nop10 payload => Sys2Proof.Machine.execNop10 payload s
  | .nop11 payload => Sys2Proof.Machine.execNop11 payload s
  | .nop12 payload => Sys2Proof.Machine.execNop12 payload s
  | .nop13 payload => Sys2Proof.Machine.execNop13 payload s
  | .nop14 payload => Sys2Proof.Machine.execNop14 payload s
  | .nop15 payload => Sys2Proof.Machine.execNop15 payload s
  | .nop16 payload => Sys2Proof.Machine.execNop16 payload s
  | .nop17 payload => Sys2Proof.Machine.execNop17 payload s
  | .nop18 payload => Sys2Proof.Machine.execNop18 payload s
  | .nop19 payload => Sys2Proof.Machine.execNop19 payload s
  | .nop1A payload => Sys2Proof.Machine.execNop1A payload s
  | .nop1B payload => Sys2Proof.Machine.execNop1B payload s
  | .nop1C payload => Sys2Proof.Machine.execNop1C payload s
  | .nop3D payload => Sys2Proof.Machine.execNop3D payload s

end Sys2Proof.Machine
end

