-- ==== Sys2Proof/Machine/Fetch.lean ====
section
/-!
DEFINITION. The part of a step before a record's own meaning (40_dispatch.md R69 to R73): the status,
the loop exit, the tag read, the lookup, the bounds check and the fetch of the payload operand.
-/

namespace Sys2Proof.Machine

/-- What the part of a step before the record's own meaning answers: the step's outcome, or the record
to run. -/
inductive Front where
  | done (o : Result)
  | run (i : Instr)

/-- `UnrecognizedTag` (40_dispatch.md R72, 60_exceptions.md R132). -/
def State.raiseUnrecognized (s : State) (t : Byte) : State :=
  s.raise .unrecognizedTag s.cur t none

/-- `TruncatedPayload` (40_dispatch.md R73, 60_exceptions.md R133). -/
def State.raiseTruncated (s : State) (t : Byte) (size : Nat) : State :=
  s.raise .truncatedPayload s.cur t (some size)

/-- The payload operand of the record at the cursor (20_memory.md R43, R45): a decoder that sets a field
reads the bytes `cur+1 .. cur+e.size`; the no-op decoder reads none. DESIGN CHOICE, safe: a no-op's
operand is then a placeholder of the span's length, which no meaning looks into
(notes/assumptions/10.md). -/
def State.fetchPayload (s : State) (e : Entry) : Option (List Byte) :=
  match e.dec with
  | .noop => some (List.replicate e.size 0)
  | .temp | .co2 | .bat | .occ | .extd => s.readSpan (s.cur + 1) e.size

/-- The record at the cursor, once its entry `e` is found and the bounds check has passed (40_dispatch.md
R74). A no-op entry without a row in opcode_table.json consumes its span (41_field_decoders.md R92). -/
def State.frontRecord (s : State) (t : Byte) (e : Entry) : Front :=
  match s.fetchPayload e with
  | none => .done (.fault (.bufferIndex (s.cur + 1)))
  | some payload =>
    match e.spell payload with
    | .row i => .run i
    | .otherNoop => .done (.next (s.advance e.size))
    | .misfit => .done (.refused (.inadmissibleEntry t))

/-- The handling of the tag `t` at the cursor: lookup, then the strict bounds check `N > cur + e.size`
(40_dispatch.md R70, R72, R73; 60_exceptions.md R136). -/
def State.frontTag (s : State) (t : Byte) : Front :=
  match s.layout.lookup t with
  | none => .done (.next (s.raiseUnrecognized t))
  | some e =>
    if s.len > s.cur + e.size then s.frontRecord t e
    else .done (.next (s.raiseTruncated t e.size))

/-- The part of a step before a record's own meaning. Outside `BUSY` the block does nothing and holds
its state (60_exceptions.md R150); at the end of the buffer it finishes (40_dispatch.md R71). -/
def State.front (s : State) : Front :=
  match s.status with
  | .idle => .done (.next s)
  | .doneOk => .done (.next s)
  | .doneErr => .done (.next s)
  | .busy =>
    if s.cur ≥ s.len then .done (.next s.finish)
    else
      match s.memRead s.cur with
      | none => .done (.fault (.bufferIndex s.cur))
      | some t => s.frontTag t

end Sys2Proof.Machine
end

