-- ==== Sys2Proof/Machine/Step.lean ====
section
/-!
DEFINITION. One step of the block: one whole TLV record, atomically (40_dispatch.md R69, 00_scope.md
R16). The parts are in Machine/Fetch.lean and in the meanings.
-/

namespace Sys2Proof.Machine

/-- One step (40_dispatch.md R69; 60_exceptions.md R150 outside `BUSY`). -/
def step (s : State) : Host.Outcome State Fault Refusal :=
  match s.front with
  | .done o => o
  | .run i => exec i s

/-- `s` with the instruction of bits `w` requested as its buffer: the block does not load a program, a
host's request does (70_reset R151; notes/assumptions/8.md). -/
def State.withFetchWord (s : State) (nbits w : Nat) : State := s.latch (tableBytes nbits w)

end Sys2Proof.Machine
end

