-- ==== Sys2Proof/Machine/HostInterface.lean ====
section
/-!
DEFINITION. The host's side of the block: its requests and power-on reset, which are inputs between
steps and not steps (70_reset R151, R152, R158), and its reads of `status`, the record and `err` (R157,
60_exceptions.md R145). The host has no move that writes the buffer during a decode (20_memory.md R51).
-/

namespace Sys2Proof.Machine

/-- Whether a buffer of `n` bytes is within `MAX_LEN` (00_scope.md R8, 92 D3; notes/assumptions/13.md). -/
def admitsLength (n : Nat) : Bool :=
  match Config.maxLen with
  | none => true
  | some bound => decide (n ≤ bound)

/-- A host's request with the buffer `bytes` (70_reset R151). While `BUSY` (R158), or with more than
`MAX_LEN` bytes (92 D3), it is not admitted. -/
def State.request (s : State) (bytes : List Byte) : Result :=
  match s.status with
  | .busy => .refused .requestWhileBusy
  | .idle | .doneOk | .doneErr =>
    if admitsLength bytes.length then .next (s.latch bytes) else .refused .requestTooLong

/-- Power-on reset in any state (70_reset R152): the state after reset; `LAYOUT` is a constant of the
design and stays (10_state.md R26), and the model's `draws` goes on (notes/assumptions/16.md). -/
def State.powerOnReset (s : State) : State :=
  { State.reset with layout := s.layout, draws := s.draws }

/-- The decoded record as the host reads it: each field absent or with its value (10_state.md R38):
tenths of a degree, ppm, millivolts, a named state, a boolean. -/
structure DecodedRecord where
  temperature : Option Int
  co2 : Option Nat
  batteryMv : Option Nat
  occupancy : Option Occupancy
  externalDigital : Option Bool
  deriving DecidableEq, Repr

/-- The record with every field absent (40_dispatch.md R78). -/
def DecodedRecord.empty : DecodedRecord := ⟨none, none, none, none, none⟩

/-- The error response: the kind with its index, byte and, for `TruncatedPayload`, size (60_exceptions.md
R132 to R134). The raw input is the host's own buffer (92 D12). -/
inductive DecodeError where
  | unrecognizedTag (index : Nat) (byte : Byte)
  | truncatedPayload (index : Nat) (byte : Byte) (size : Nat)
  | invalidEnumValue (index : Nat) (byte : Byte)
  deriving DecidableEq, Repr

/-- The host's read of `status` (10_state.md R23). -/
def State.readStatus (s : State) : BitVec 2 := s.status.code

/-- The value of an occupancy register; code 3 is a fault (93 U16). -/
def readOccupancyCode : Option (BitVec 2) → Except Fault (Option Occupancy)
  | none => .ok none
  | some c =>
    match Occupancy.ofCode c with
    | some o => .ok (some o)
    | none => .error .occupancyCode

/-- The values of the record registers (10_state.md R27 to R31): the temperature register is read as
the signed 16-bit number it holds. -/
def Record.decoded (r : Record) : Except Fault DecodedRecord :=
  match readOccupancyCode r.occupancy with
  | .error f => .error f
  | .ok occ =>
    .ok ⟨r.temperature.map sext16, r.co2.map BitVec.toNat, r.batteryMv.map BitVec.toNat, occ,
      r.externalDigital⟩

/-- The host's read of the record: only in `DONE_OK` (70_reset R157, 10_state.md R35). -/
def State.readRecord (s : State) : Except Fault DecodedRecord :=
  match s.status with
  | .doneOk => s.record.decoded
  | .idle | .busy | .doneErr => .error .recordNotReadable

/-- The error registers, in `DONE_ERR` only (10_state.md R25, 70_reset R157). -/
def State.errReadable (s : State) : Except Fault ErrRegs :=
  match s.status with
  | .doneErr => .ok s.err
  | .idle | .busy | .doneOk => .error .errNotReadable

/-- The kind the error registers name; code 0 is a fault (60_exceptions.md R135). -/
def ErrRegs.kindNamed (e : ErrRegs) : Except Fault ErrKind :=
  match ErrKind.ofCode e.kind with
  | some k => .ok k
  | none => .error .errKindCode

/-- The host's read of `err.kind`. -/
def State.readErrKind (s : State) : Except Fault ErrKind :=
  match s.errReadable with
  | .error f => .error f
  | .ok e => e.kindNamed

/-- The host's read of `err.index`. -/
def State.readErrIndex (s : State) : Except Fault Nat := s.errReadable.map ErrRegs.index

/-- The host's read of `err.byte`. -/
def State.readErrByte (s : State) : Except Fault Byte := s.errReadable.map ErrRegs.byte

/-- The host's read of `err.size`: only where the kind is `TruncatedPayload` (10_state.md R25). -/
def State.readErrSize (s : State) : Except Fault Nat :=
  match s.errReadable with
  | .error f => .error f
  | .ok e =>
    match e.kindNamed with
    | .error f => .error f
    | .ok .truncatedPayload => .ok e.size
    | .ok .unrecognizedTag | .ok .invalidEnumValue => .error .errSizeNotReadable

/-- The error the registers hold (60_exceptions.md R132 to R135). -/
def ErrRegs.decoded (e : ErrRegs) : Except Fault DecodeError :=
  match e.kindNamed with
  | .error f => .error f
  | .ok .unrecognizedTag => .ok (.unrecognizedTag e.index e.byte)
  | .ok .truncatedPayload => .ok (.truncatedPayload e.index e.byte e.size)
  | .ok .invalidEnumValue => .ok (.invalidEnumValue e.index e.byte)

/-- The host's read of the whole error response (10_state.md R38). -/
def State.readErr (s : State) : Except Fault DecodeError :=
  match s.errReadable with
  | .error f => .error f
  | .ok e => e.decoded

/-- The response of the last decode: `Ok(rec)` in `DONE_OK`, `Err(..)` in `DONE_ERR` (10_state.md R38,
70_reset R162). In `IDLE` and `BUSY` there is none. -/
def State.response (s : State) : Except Fault (Except DecodeError DecodedRecord) :=
  match s.status with
  | .idle | .busy => .error .recordNotReadable
  | .doneOk => s.readRecord.map .ok
  | .doneErr => s.readErr.map .error

/-- A raw read of a value register: a fault where its presence flag is 0 (92 D28, 93 U6). -/
def readValueRegister {α : Type} (field : Option α) : Except Fault α :=
  match field with
  | some v => .ok v
  | none => .error .absentField

/-- The host's raw read of one value register of the record: only in `DONE_OK` (70_reset R157), and a
fault where its presence flag is 0 (92 D28, 93 U6). -/
def State.readRegister {α : Type} (s : State) (field : DecodedRecord → Option α) : Except Fault α :=
  match s.readRecord with
  | .error f => .error f
  | .ok r => readValueRegister (field r)

end Sys2Proof.Machine
end

