-- ==== Sys2Proof/Machine/Deserialize.lean ====
section
/-!
DEFINITION. The whole decode as the document's function on a byte list (40_dispatch.md R77), written
over values and list positions, with no register, cursor state or record syntax: the reference that the
stepping machine refines. A decode of `N` bytes needs at most `N + 1` turns (R79).
-/

namespace Sys2Proof.Machine

/-- The field decoders on a byte list (41_field_decoders.md R85 to R92): `p` is the index of the first
payload byte. `none` stands for an index outside the list, which no admissible table reaches (R117). -/
def decodeField (dec : Decoder) (input : List Byte) (p : Nat) (r : DecodedRecord) :
    Option (Except DecodeError DecodedRecord) :=
  match dec with
  | .noop => some (.ok r)
  | .temp =>
    match input[p]?, input[p + 1]? with
    | some p0, some p1 => some (.ok { r with temperature := some (sext16 (be16 p0 p1)) })
    | _, _ => none
  | .co2 =>
    match input[p]?, input[p + 1]? with
    | some p0, some p1 => some (.ok { r with co2 := some (p0.toNat * 256 + p1.toNat) })
    | _, _ => none
  | .bat =>
    match input[p]?, input[p + 1]? with
    | some p0, some p1 => some (.ok { r with batteryMv := some (p0.toNat * 256 + p1.toNat) })
    | _, _ => none
  | .occ =>
    match input[p]? with
    | none => none
    | some b =>
      match occupancyOf b with
      | some o => some (.ok { r with occupancy := some o })
      | none => some (.error (.invalidEnumValue p b))
  | .extd =>
    match input[p]? with
    | none => none
    | some b =>
      match contactOf b with
      | some d => some (.ok { r with externalDigital := some d })
      | none => some (.error (.invalidEnumValue p b))

/-- The walk from cursor `cur` with record `r`, at most `fuel` turns; `none` where the fuel runs out or
a field decoder has no bytes (40_dispatch.md R77). -/
def deserializeFrom (L : Layout) (input : List Byte) :
    Nat → Nat → DecodedRecord → Option (Except DecodeError DecodedRecord)
  | 0, _, _ => none
  | fuel + 1, cur, r =>
    match input[cur]? with
    | none => some (.ok r)
    | some t =>
      match L.lookup t with
      | none => some (.error (.unrecognizedTag cur t))
      | some e =>
        if input.length > cur + e.size then
          match decodeField e.dec input (cur + 1) r with
          | none => none
          | some (.error err) => some (.error err)
          | some (.ok r') => deserializeFrom L input fuel (cur + e.size + 1) r'
        else some (.error (.truncatedPayload cur t e.size))

/-- `deserialize(in)` under table `L` (40_dispatch.md R77). -/
def deserialize (L : Layout) (input : List Byte) : Option (Except DecodeError DecodedRecord) :=
  deserializeFrom L input (input.length + 1) 0 .empty

end Sys2Proof.Machine
end

