-- ==== Sys2Proof/Machine/Instances.lean ====
section
/-!
DEFINITION. Several instances of the block (20_memory.md R52, 60_exceptions.md R148): each has a state of
its own, and a move of one is a move of that state alone.
-/

namespace Sys2Proof.Machine

/-- A move of one instance: its own step, or its host's request (20_memory.md R52). -/
inductive Move where
  | step
  | request (bytes : List Byte)
  deriving DecidableEq, Repr

/-- A move on the state of the instance that makes it. -/
def Move.apply (m : Move) (s : State) : Result :=
  match m with
  | .step => Machine.step s
  | .request bytes => s.request bytes

/-- Instance `k` of `ss` makes a move; the others hold still. An index past the list names no instance,
and nothing moves. -/
def moveAt (ss : List State) (k : Nat) (m : Move) : Host.Outcome (List State) Fault Refusal :=
  match ss[k]? with
  | none => .next ss
  | some s =>
    match m.apply s with
    | .next s' => .next (ss.set k s')
    | .fault f => .fault f
    | .refused r => .refused r

/-- An interleaving of moves: each names the instance that makes it, the first in the list is the first
made (20_memory.md R52). -/
def runMoves (ss : List State) : List (Nat × Move) → Host.Outcome (List State) Fault Refusal
  | [] => .next ss
  | (k, m) :: moves =>
    match moveAt ss k m with
    | .next ss' => runMoves ss' moves
    | .fault f => .fault f
    | .refused r => .refused r

/-- The moves of instance `k` in an interleaving, in their order. -/
def movesOf (k : Nat) (moves : List (Nat × Move)) : List Move :=
  (moves.filter (fun p => p.1 = k)).map Prod.snd

/-- The moves `ms` of an instance in state `s` are one decode of `bytes`: its host's request, unless `s`
is the state right after it, and at least `N + 1` steps (40_dispatch.md R77, R79). -/
def IsDecodeOf (s : State) (bytes : List Byte) (ms : List Move) : Prop :=
  ∃ n, bytes.length + 1 ≤ n ∧
    (s.status ≠ .busy ∧ admitsLength bytes.length = true ∧
        ms = .request bytes :: List.replicate n .step ∨
      (∃ s₀ : State, s = s₀.latch bytes) ∧ ms = List.replicate n .step)

end Sys2Proof.Machine
end

