-- ==== Sys2Proof/Machine/Notation.lean ====
section
/-!
DEFINITION. The stream notation (30_encoding.md R67): its lines as data, the bytes a line assembles to,
and disassembly record by record (R68). No step reads it.
-/

namespace Sys2Proof.Machine

/-- A line of the stream notation (30_encoding.md R67). -/
inductive Line where
  /-- `TEMP v`, integer tenths -/
  | temp (v : Int)
  /-- `CO2 v` -/
  | co2 (v : Nat)
  /-- `BAT v` -/
  | bat (v : Nat)
  /-- `OCC s`, a named state -/
  | occ (o : Occupancy)
  /-- `OCC #xx`, a raw byte -/
  | occRaw (b : Byte)
  /-- `EXTD s`, false or true -/
  | extd (d : Bool)
  /-- `EXTD #xx`, a raw byte -/
  | extdRaw (b : Byte)
  /-- `LIGHT b1 .. bL4` -/
  | light (payload : List Byte)
  /-- `NOP_xx b1 .. bn` -/
  | nop (id : Byte) (payload : List Byte)
  /-- `RAW b1 .. bk`, a byte directive and not a record (R68) -/
  | raw (bytes : List Byte)
  deriving DecidableEq, Repr

/-- Whether a line's operands are in the range 30_encoding.md R67 gives them under table `L`. -/
def Line.inRange (L : Layout) : Line → Bool
  | .temp v => decide (-32768 ≤ v) && decide (v ≤ 32767)
  | .co2 v => decide (v ≤ 65535)
  | .bat v => decide (v ≤ 65535)
  | .occ _ => true
  | .occRaw _ => true
  | .extd _ => true
  | .extdRaw _ => true
  | .light payload => L.contains ⟨0x04, payload.length, .noop⟩
  | .nop id payload => id ≠ 0x04 && L.contains ⟨id, payload.length, .noop⟩
  | .raw _ => true

/-- Whether a line is a record, which every line but `RAW` is (30_encoding.md R68). -/
def Line.isRecord : Line → Bool
  | .raw _ => false
  | .temp _ | .co2 _ | .bat _ | .occ _ | .occRaw _ | .extd _ | .extdRaw _ | .light _ | .nop _ _ => true

/-- Whether a line spells its payload by name where the payload has one: a raw byte is then only an
illegal one (R62). DESIGN CHOICE, unsafe (notes/assumptions/21.md): R67 admits a raw byte that has a name
too, R68 calls the notation one-to-one, and the spec does not say which line such a byte gives back. The
model keeps both lines (`inRange`) and takes the named one for the record's line. -/
def Line.named : Line → Bool
  | .occRaw b => (occupancyOf b).isNone
  | .extdRaw b => (contactOf b).isNone
  | .temp _ | .co2 _ | .bat _ | .occ _ | .extd _ | .light _ | .nop _ _ | .raw _ => true

/-- The line with its payload byte spelled by name where the byte has one: the raw form of a legal byte
goes to its named form, and every other line stays. DESIGN CHOICE, unsafe (notes/assumptions/21.md). -/
def Line.byName : Line → Line
  | .occRaw b => match occupancyOf b with | some o => .occ o | none => .occRaw b
  | .extdRaw b => match contactOf b with | some d => .extd d | none => .extdRaw b
  | .temp v => .temp v
  | .co2 v => .co2 v
  | .bat v => .bat v
  | .occ o => .occ o
  | .extd d => .extd d
  | .light payload => .light payload
  | .nop id payload => .nop id payload
  | .raw bytes => .raw bytes

/-- The two bytes of a 16-bit value, the more significant first. -/
def beBytes (v : Half) : List Byte := [highByte v, lowByte v]

/-- The payload byte of an occupancy state (30_encoding.md R67). -/
def Occupancy.byte : Occupancy → Byte
  | .noBody => 0x00
  | .pendingOrPir => 0x01
  | .occupiedOrHeat => 0x02

/-- The bytes a line assembles to (30_encoding.md R67). -/
def Line.bytes (L : Layout) : Line → List Byte
  | .temp v => 0x01 :: beBytes (BitVec.ofInt 16 v)
  | .co2 v => 0x06 :: beBytes (BitVec.ofNat 16 v)
  | .bat v => 0x07 :: beBytes (BitVec.ofNat 16 v)
  | .occ o => [0x05, o.byte]
  | .occRaw b => [0x05, b]
  | .extd d => [L.extdTag, if d then 0x01 else 0x00]
  | .extdRaw b => [L.extdTag, b]
  | .light payload => 0x04 :: payload
  | .nop id payload => id :: payload
  | .raw bytes => bytes

/-- A stream is the concatenation of its lines (30_encoding.md R67). -/
def assemble (L : Layout) (lines : List Line) : List Byte := (lines.map (Line.bytes L)).flatten

/-- The line of a record, from its entry and its payload; none where the entry's size is not its
decoder's. A legal payload byte of OCC or EXTD gives the named line, never the raw one that R67 also
admits: DESIGN CHOICE, unsafe (`Line.byName`, notes/assumptions/21.md). -/
def lineOf (e : Entry) (payload : List Byte) : Option Line :=
  match e.dec, payload with
  | .temp, [p0, p1] => some (.temp (sext16 (be16 p0 p1)))
  | .co2, [p0, p1] => some (.co2 (be16 p0 p1).toNat)
  | .bat, [p0, p1] => some (.bat (be16 p0 p1).toNat)
  | .occ, [b] => some (Line.occRaw b).byName
  | .extd, [b] => some (Line.extdRaw b).byName
  | .noop, p => some (if e.id = 0x04 then .light p else .nop e.id p)
  | _, _ => none

/-- Disassembly record by record (30_encoding.md R65, R68), at most `fuel` records; none where the bytes
are no whole records. -/
def disassembleFrom (L : Layout) : Nat → List Byte → Option (List Line)
  | _, [] => some []
  | 0, _ :: _ => none
  | fuel + 1, t :: bytes =>
    match L.lookup t with
    | none => none
    | some e =>
      if e.size ≤ bytes.length then
        match lineOf e (bytes.take e.size), disassembleFrom L fuel (bytes.drop e.size) with
        | some line, some lines => some (line :: lines)
        | _, _ => none
      else none

/-- The lines of a stream of whole records (30_encoding.md R68). -/
def disassemble (L : Layout) (bytes : List Byte) : Option (List Line) :=
  disassembleFrom L bytes.length bytes

end Sys2Proof.Machine
end

