-- ==== Sys2Proof/Machine/Views.lean ====
section
/-!
DEFINITION. Record equality and the host-side views (42_record_views.md). No step reads them.
-/

namespace Sys2Proof.Machine

/-- `tempEq` on optional temperatures in tenths: the values in °C differ by less than half of 0.1
(42_record_views.md R123, 90 C5). -/
def tempEq : Option Int → Option Int → Bool
  | none, none => true
  | some u, some v => decide (|(u : ℚ) / 10 - (v : ℚ) / 10| < 1 / 20)
  | some _, none => false
  | none, some _ => false

/-- Record equality: approximate on the temperature, exact on the other fields (42_record_views.md
R122). -/
def recordEq (a b : DecodedRecord) : Bool :=
  tempEq a.temperature b.temperature && a.co2 = b.co2 && a.batteryMv = b.batteryMv &&
    a.occupancy = b.occupancy && a.externalDigital = b.externalDigital

/-- A floating-point number: `± mant · 2 ^ exp`, or an infinity. `roundRatio` gives each number one
term. DESIGN CHOICE: the representation (notes/assumptions/20.md). -/
inductive FloatNumber where
  | finite (negative : Bool) (mant : Nat) (exp : Int)
  | infinite (negative : Bool)
  deriving DecidableEq, Repr

/-- `⌊log2 (n / d)⌋` of a positive ratio. -/
def ratioExponent (n d : Nat) : Int :=
  let e : Int := (Nat.log2 n : Int) - Nat.log2 d
  if n * 2 ^ (-e).toNat ≥ d * 2 ^ e.toNat then e else e - 1

/-- `n / d` rounded to the nearest natural number, ties to even. -/
def roundNearestEven (n d : Nat) : Nat :=
  let q := n / d
  let r := n % d
  if 2 * r > d ∨ (2 * r = d ∧ q % 2 = 1) then q + 1 else q

/-- The exponent of the unit in the last place at `n / d` in a format, subnormals included. -/
def unitExponent (fmt : FloatFmt) (n d : Nat) : Int :=
  max (ratioExponent n d) fmt.minExp - ((fmt.precision : Int) - 1)

/-- `n / d` counted in units in the last place, rounded to nearest, ties to even. -/
def roundMantissa (fmt : FloatFmt) (n d : Nat) : Nat :=
  let q := unitExponent fmt n d
  roundNearestEven (n * 2 ^ (-q).toNat) (d * 2 ^ q.toNat)

/-- `± n / d` in the format, rounded to nearest, ties to even, to an infinity above the largest normal
binade (42_record_views.md R126, R128, D17). A mantissa that rounds up to `2 ^ precision` is renormalised.
PRESUMED, unsafe: the rounding is general knowledge (93 G3; notes/assumptions/7.md).
DESIGN CHOICE: the term that stands for the number (notes/assumptions/20.md). -/
def roundRatio (fmt : FloatFmt) (negative : Bool) (n d : Nat) : FloatNumber :=
  if n = 0 then .finite negative 0 (fmt.minExp - ((fmt.precision : Int) - 1))
  else
    let q := unitExponent fmt n d
    let m := roundMantissa fmt n d
    if 0 < m ∧ (Nat.log2 m : Int) + q > fmt.maxExp then .infinite negative
    else if m = 2 ^ fmt.precision then .finite negative (2 ^ (fmt.precision - 1)) (q + 1)
    else .finite negative m q

/-- The exact temperature view, in °C (42_record_views.md R126). -/
def DecodedRecord.celsius (r : DecodedRecord) : Option ℚ := r.temperature.map (fun t => (t : ℚ) / 10)

/-- The floating-point temperature view, in °C (42_record_views.md R126). -/
def DecodedRecord.celsiusFloat (fmt : FloatFmt) (r : DecodedRecord) : Option FloatNumber :=
  r.temperature.map (fun t => roundRatio fmt (decide (t < 0)) t.natAbs 10)

/-- The exact battery view, in volts (42_record_views.md R128). -/
def DecodedRecord.volts (r : DecodedRecord) : Option ℚ := r.batteryMv.map (fun m => (m : ℚ) / 1000)

/-- The floating-point battery view, in volts (42_record_views.md R128). -/
def DecodedRecord.voltsFloat (fmt : FloatFmt) (r : DecodedRecord) : Option FloatNumber :=
  r.batteryMv.map (fun m => roundRatio fmt false m 1000)

/-- The temperature view of the block; a fault unless `DONE_OK` (42_record_views.md R126, R130). -/
def State.viewCelsius (s : State) : Except Fault (Option ℚ) := s.readRecord.map DecodedRecord.celsius

/-- The floating-point temperature view of the block (42_record_views.md R126, R130). -/
def State.viewCelsiusFloat (fmt : FloatFmt) (s : State) : Except Fault (Option FloatNumber) :=
  s.readRecord.map (DecodedRecord.celsiusFloat fmt)

/-- The CO2 view of the block, in ppm (42_record_views.md R127, R130). -/
def State.viewCo2 (s : State) : Except Fault (Option Nat) := s.readRecord.map DecodedRecord.co2

/-- The battery view of the block, in volts (42_record_views.md R128, R130). -/
def State.viewVolts (s : State) : Except Fault (Option ℚ) := s.readRecord.map DecodedRecord.volts

/-- The floating-point battery view of the block (42_record_views.md R128, R130). -/
def State.viewVoltsFloat (fmt : FloatFmt) (s : State) : Except Fault (Option FloatNumber) :=
  s.readRecord.map (DecodedRecord.voltsFloat fmt)

/-- The millivolt register, also readable unchanged (42_record_views.md R128, R130). -/
def State.viewMillivolts (s : State) : Except Fault (Option Nat) :=
  s.readRecord.map DecodedRecord.batteryMv

/-- The occupancy view of the block (42_record_views.md R129, R130). -/
def State.viewOccupancy (s : State) : Except Fault (Option Occupancy) :=
  s.readRecord.map DecodedRecord.occupancy

/-- The digital-contact view of the block (42_record_views.md R129, R130). -/
def State.viewContact (s : State) : Except Fault (Option Bool) :=
  s.readRecord.map DecodedRecord.externalDigital

end Sys2Proof.Machine
end

