-- ==== Sys2Proof/Safety.lean ====
section
/-!
DEFINITION. What the statements take a sound state to be: the invariants the spec gives the state tuple.
-/

namespace Sys2Proof.Machine

/-- The buffer holds a byte at each index `0..N-1` and nowhere else (20_memory.md R39). -/
def State.bufferFilled (s : State) : Prop := s.mem.map Prod.fst = List.range s.len

/-- The invariants of the state tuple. -/
structure State.Inv (s : State) : Prop where
  /-- 20_memory.md R39 -/
  buffer : s.bufferFilled
  /-- 10_state.md R20: `0 ≤ cur ≤ N` -/
  cursor : s.cur ≤ s.len
  /-- 10_state.md R20: at success the cursor is at the end -/
  success : s.status = .doneOk → s.cur = s.len
  /-- 10_state.md R30: occupancy code 3 is never written -/
  occupancy : s.record.occupancy ≠ some 3
  /-- 60_exceptions.md R135: kind code 0 is never written -/
  errKind : s.status = .doneErr → s.err.kind ≠ 0
  /-- 60_exceptions.md R132 to R134: the recorded byte stands at the recorded index -/
  errByte : s.status = .doneErr → s.memRead s.err.index = some s.err.byte
  /-- 60_exceptions.md R138: an error discards the record; that it then reads empty is a DESIGN CHOICE
  (notes/assumptions/5.md) -/
  discarded : s.status = .doneErr → s.record = .empty
  /-- 10_state.md R37: no field is present before the first request -/
  untouched : s.status = .idle → s.record = .empty
  /-- 30_encoding.md R57 -/
  layout : s.layout.admissible = true

/-- The bytes `c` are one whole record of table `L` whose entry is `e` (30_encoding.md R53). -/
def IsRecordOf (L : Layout) (e : Entry) (c : List Byte) : Prop :=
  ∃ t p, c = t :: p ∧ L.lookup t = some e ∧ p.length = e.size

/-- The bytes `c` are one whole record with a legal tag and a legal payload (30_encoding.md R62, R66). -/
def IsLegalRecord (L : Layout) (c : List Byte) : Prop :=
  ∃ e, IsRecordOf L e c ∧
    (e.dec = .occ → ∀ b ∈ c.tail, b.toNat ≤ 2) ∧
    (e.dec = .extd → ∀ b ∈ c.tail, b.toNat ≤ 1)

end Sys2Proof.Machine
end

