-- ==== Sys2Proof/Certificates/Slice0/Obligations.lean ====
section
/-!
DEFINITION. The statements for the provers. A statement over every state is a statement over every
`LAYOUT`, since the table is a field of State; where it needs an admissible table, it says so.
-/

open Sys2Proof Sys2Proof.Machine

/-! ## Operands -/

/-- 41_field_decoders.md R86: SEXT16 by its normative form, its range, its output as the bits of a wider
signed register, the temperature register's bits, the corner cases, and the sign's independence of the
low byte. -/
def Obligations.Sext16WidensTwosComplement : Prop :=
  (∀ v : Half,
    (v.getLsbD 15 = false → sext16 v = (v.toNat : Int)) ∧
    (v.getLsbD 15 = true → sext16 v = (v.toNat : Int) - 65536) ∧
    -32768 ≤ sext16 v ∧ sext16 v ≤ 32767 ∧
    (∀ W, 16 ≤ W → ∀ k, k < W →
      (BitVec.ofInt W (sext16 v)).getLsbD k = if k < 16 then v.getLsbD k else v.getLsbD 15) ∧
    BitVec.ofInt 16 (sext16 v) = v) ∧
  (∀ hi lo : Byte, sext16 (be16 hi lo) < 0 ↔ 128 ≤ hi.toNat) ∧
  sext16 0x0000 = 0 ∧ sext16 0x7FFF = 32767 ∧ sext16 0x8000 = -32768 ∧ sext16 0x8001 = -32767 ∧
  sext16 0xFFFF = -1 ∧ sext16 0x00FF = 255 ∧ sext16 0xFF38 = -200

/-! ## Encoding -/

/-- Decoding an encoded record gives the record and leaves the bytes after it, for every admissible
table (30_encoding.md R53, R65, R68). -/
def Obligations.DecodeOfEncodeIsTheRecord : Prop :=
  ∀ (L : Layout) (i : Instr) (rest : List Byte), L.admissible = true → i.wellFormed L = true →
    decode L (encode L i ++ rest) = .record i rest

/-- A decoded record is a record of the table, and its encoding is the bytes it was read from
(30_encoding.md R68). -/
def Obligations.EncodeOfDecodeIsTheBytes : Prop :=
  ∀ (L : Layout) (i : Instr) (bytes rest : List Byte), L.admissible = true →
    decode L bytes = .record i rest → i.wellFormed L = true ∧ bytes = encode L i ++ rest

/-- Every line of the stream notation but `RAW` assembles to one whole record of the table, and
disassembling an assembled stream gives back its lines (30_encoding.md R68). That a raw byte which has a
name comes back as its named line, and a line in named form as itself, is the model's choice between R67
and R68 (notes/assumptions/21.md). -/
def Obligations.StreamNotationIsOneToOne : Prop :=
  ∀ L : Layout, L.admissible = true →
    (∀ line : Line, line.isRecord = true → line.inRange L = true →
      ∃ e, IsRecordOf L e (line.bytes L)) ∧
    (∀ lines : List Line,
      (∀ line ∈ lines, line.isRecord = true ∧ line.inRange L = true) →
      disassemble L (assemble L lines) = some (lines.map Line.byName)) ∧
    (∀ lines : List Line,
      (∀ line ∈ lines, line.isRecord = true ∧ line.inRange L = true ∧ line.named = true) →
      disassemble L (assemble L lines) = some lines)

/-- 30_encoding.md R58 and 40_dispatch.md R70: `lookup` answers the first entry in table order with the
identifier, and none exactly where no entry has it. -/
def Obligations.LookupIsFirstMatch : Prop :=
  ∀ (L : Layout) (t : Byte),
    (∀ e, L.lookup t = some e ↔
      ∃ k : Nat, L[k]? = some e ∧ e.id = t ∧ ∀ j, j < k → ∀ e' : Entry, L[j]? = some e' → e'.id ≠ t) ∧
    (L.lookup t = none ↔ ∀ e ∈ L, e.id ≠ t)

/-- 30_encoding.md R61: under an admissible table 227 byte values are illegal tags, 0x20 among them, and
each of them makes the step raise `UnrecognizedTag`; under the reference table (PRESUMED, log entry 1)
the legal tags are 0x01 to 0x1C and 0x3D. -/
def Obligations.IllegalTagsAreCounted : Prop :=
  (∀ L : Layout, L.admissible = true →
    ((List.range 256).filter (fun n => L.lookup (BitVec.ofNat 8 n) = none)).length = 227 ∧
    L.lookup 0x20 = none) ∧
  (∀ (s : State) (t : Byte), s.status = .busy → s.memRead s.cur = some t → s.layout.lookup t = none →
    step s = .next (s.raise .unrecognizedTag s.cur t none)) ∧
  (∀ t : Byte, layoutRef.lookup t ≠ none ↔ (1 ≤ t.toNat ∧ t.toNat ≤ 0x1C) ∨ t.toNat = 0x3D)

/-- The reference table is admissible, with `EXTD_TAG = 0x0D` and `L4 = 2`. The model's choice of table
(PRESUMED, log entry 1). -/
def Obligations.ReferenceLayoutIsAdmissible : Prop :=
  layoutRef.admissible = true ∧ layoutRef.extdTag = 0x0D ∧ layoutRef.lightSize = some 2

/-- Words written out from the spec's encodings (30_encoding.md R55, R59) decode to the records they
spell. The last two rest on the reference table (PRESUMED, log entry 1). -/
def Obligations.WrittenOutWordsDecode : Prop :=
  decode layoutRef [0x01, 0xFF, 0x38] = .record (.temp 0xFF38) [] ∧
  decode layoutRef [0x06, 0x01, 0x90] = .record (.co2 0x0190) [] ∧
  decode layoutRef [0x07, 0x0E, 0x41, 0x20] = .record (.bat 0x0E41) [0x20] ∧
  decode layoutRef [0x05, 0x01] = .record (.occ 0x01) [] ∧
  decode layoutRef [0x06, 0x00] = .truncated 0x06 2 ∧
  decode layoutRef [0x20] = .unrecognizedTag 0x20 ∧
  decode layoutRef [0x0D, 0x01] = .record (.extd 0x01) [] ∧
  decode layoutRef [0x04, 0x12, 0x34] = .record (.light [0x12, 0x34]) []

/-! ## What each record's meaning answers -/

/-- TEMP, CO2 and BAT always complete: the field holds the payload's bits, the cursor moves past the
record, nothing else changes (41_field_decoders.md R87, R88, R89; 40_dispatch.md R76). -/
def Obligations.SixteenBitRecordsComplete : Prop :=
  ∀ (s : State) (v : Half),
    exec (.temp v) s =
      .next { s with record := { s.record with temperature := some v }, cur := s.cur + 3 } ∧
    exec (.co2 v) s = .next { s with record := { s.record with co2 := some v }, cur := s.cur + 3 } ∧
    exec (.bat v) s =
      .next { s with record := { s.record with batteryMv := some v }, cur := s.cur + 3 }

/-- OCC completes on each of its three legal bytes and EXTD on each of its two: the register holds the
state's code, or the contact state, the cursor moves past the record, nothing else changes
(41_field_decoders.md R90, R91; 10_state.md R30, R31). -/
def Obligations.EnumRecordsComplete : Prop :=
  ∀ (s : State) (b : Byte),
    (b.toNat ≤ 2 →
      exec (.occ b) s =
        .next { s with
          record := { s.record with occupancy := some (BitVec.ofNat 2 b.toNat) }, cur := s.cur + 2 }) ∧
    (b.toNat ≤ 1 →
      exec (.extd b) s =
        .next { s with
          record := { s.record with externalDigital := some (decide (b.toNat = 1)) },
          cur := s.cur + 2 })

/-- OCC and EXTD raise `InvalidEnumValue` on every other byte, with the payload byte and its index
(41_field_decoders.md R90, R91). -/
def Obligations.EnumRecordsTrapOnIllegalBytes : Prop :=
  ∀ (s : State) (b : Byte),
    (3 ≤ b.toNat → exec (.occ b) s = .next (s.raise .invalidEnumValue (s.cur + 1) b none)) ∧
    (2 ≤ b.toNat → exec (.extd b) s = .next (s.raise .invalidEnumValue (s.cur + 1) b none))

/-- Every no-op record completes whatever its payload: the cursor moves past it, nothing else changes
(41_field_decoders.md R92 to R116). -/
def Obligations.NoopRecordsComplete : Prop :=
  ∀ (s : State) (p : List Byte) (t : State), t = { s with cur := s.cur + p.length + 1 } →
    exec (.nop02 p) s = .next t ∧ exec (.nop03 p) s = .next t ∧ exec (.light p) s = .next t ∧
    exec (.nop08 p) s = .next t ∧ exec (.nop09 p) s = .next t ∧ exec (.nop0A p) s = .next t ∧
    exec (.nop0B p) s = .next t ∧ exec (.nop0C p) s = .next t ∧ exec (.nop0E p) s = .next t ∧
    exec (.nop0F p) s = .next t ∧ exec (.nop10 p) s = .next t ∧ exec (.nop11 p) s = .next t ∧
    exec (.nop12 p) s = .next t ∧ exec (.nop13 p) s = .next t ∧ exec (.nop14 p) s = .next t ∧
    exec (.nop15 p) s = .next t ∧ exec (.nop16 p) s = .next t ∧ exec (.nop17 p) s = .next t ∧
    exec (.nop18 p) s = .next t ∧ exec (.nop19 p) s = .next t ∧ exec (.nop1A p) s = .next t ∧
    exec (.nop1B p) s = .next t ∧ exec (.nop1C p) s = .next t ∧ exec (.nop3D p) s = .next t

/-- The frame of every record: either it is accepted, and then the cursor moves past it, its own field
holds its operand after, and nothing else changes; or it is an OCC or EXTD record with an illegal byte, and then it
raises `InvalidEnumValue` (41_field_decoders.md R118; 40_dispatch.md R75, R76). No record writes the
buffer or the table. -/
def Obligations.RecordsWriteOnlyTheirField : Prop :=
  ∀ (i : Instr) (s t : State), exec i s = .next t →
    t.mem = s.mem ∧ t.len = s.len ∧ t.layout = s.layout ∧ (∀ a, t.memRead a = s.memRead a) ∧
    ((t.cur = s.cur + i.size + 1 ∧ t.status = s.status ∧ t.err = s.err ∧ t.draws = s.draws ∧
        ((∃ v, i = .temp v ∧ t.record.temperature = some v) ∨
          (∀ v, i ≠ .temp v) ∧ t.record.temperature = s.record.temperature) ∧
        ((∃ v, i = .co2 v ∧ t.record.co2 = some v) ∨
          (∀ v, i ≠ .co2 v) ∧ t.record.co2 = s.record.co2) ∧
        ((∃ v, i = .bat v ∧ t.record.batteryMv = some v) ∨
          (∀ v, i ≠ .bat v) ∧ t.record.batteryMv = s.record.batteryMv) ∧
        ((∃ b, i = .occ b ∧ t.record.occupancy.map BitVec.toNat = some b.toNat) ∨
          (∀ b, i ≠ .occ b) ∧ t.record.occupancy = s.record.occupancy) ∧
        ((∃ b, i = .extd b ∧ t.record.externalDigital.map Bool.toNat = some b.toNat) ∨
          (∀ b, i ≠ .extd b) ∧ t.record.externalDigital = s.record.externalDigital)) ∨
      (∃ b, ((i = .occ b ∧ 3 ≤ b.toNat) ∨ (i = .extd b ∧ 2 ≤ b.toNat)) ∧
        t = s.raise .invalidEnumValue (s.cur + 1) b none))

/-- 41_field_decoders.md R119: only OCC and EXTD can fail, each exactly on a payload byte outside its
value set; every other record is accepted whatever its payload. -/
def Obligations.OnlyEnumRecordsFail : Prop :=
  ∀ (i : Instr) (s : State), s.status = .busy →
    ((∃ t, exec i s = .next t ∧ t.status = .doneErr) ↔
      ∃ b : Byte, (i = .occ b ∧ b.toNat ∉ [0, 1, 2]) ∨ (i = .extd b ∧ b.toNat ∉ [0, 1])) ∧
    ((∃ t, exec i s = .next t ∧ t.status = .busy) ↔
      ∀ b : Byte, (i = .occ b → b.toNat ∈ [0, 1, 2]) ∧ (i = .extd b → b.toNat ∈ [0, 1]))

/-- A repeated field keeps its last value: of two records of one field, the second one's stands
(10_state.md R33). -/
def Obligations.LastWriteWins : Prop :=
  ∀ (s : State) (v w : Half) (d d' : Bool) (b b' : Byte), b.toNat ≤ 2 → b'.toNat ≤ 2 →
    (∃ t u, exec (.temp v) s = .next t ∧ exec (.temp w) t = .next u ∧
      u.record = { s.record with temperature := some w }) ∧
    (∃ t u, exec (.co2 v) s = .next t ∧ exec (.co2 w) t = .next u ∧
      u.record = { s.record with co2 := some w }) ∧
    (∃ t u, exec (.bat v) s = .next t ∧ exec (.bat w) t = .next u ∧
      u.record = { s.record with batteryMv := some w }) ∧
    (∃ t u, exec (.occ b) s = .next t ∧ exec (.occ b') t = .next u ∧
      u.record = { s.record with occupancy := some (BitVec.ofNat 2 b'.toNat) }) ∧
    (∃ t u, exec (.extd (BitVec.ofNat 8 d.toNat)) s = .next t ∧
      exec (.extd (BitVec.ofNat 8 d'.toNat)) t = .next u ∧
      u.record = { s.record with externalDigital := some d' })

/-! ## The step, record by record -/

/-- When the bytes from the cursor on decode to a record, the step is that record's meaning, and nothing
is added around it (40_dispatch.md R69, R74). -/
def Obligations.StepRunsTheDecodedRecord : Prop :=
  ∀ (s : State) (bytes rest : List Byte) (i : Instr), s.status = .busy →
    s.readSpan s.cur (s.len - s.cur) = some bytes → decode s.layout bytes = .record i rest →
    step s = exec i s

/-- A table word loaded as a request's buffer runs as the record it decodes to, as the first record of the
decode (70_reset R151, R153). The table is the reference one (PRESUMED, log entry 1). -/
def Obligations.TableWordRunsAsItsRecord : Prop :=
  ∀ (s : State) (nbits w : Nat) (i : Instr), s.layout = layoutRef → decodeTableWord nbits w = some i →
    step (s.withFetchWord nbits w) = exec i (s.withFetchWord nbits w)

/-- The other answers of the decoder on the bytes from the cursor on, and the step each stands for
(40_dispatch.md R71, R72, R73, R76; 30_encoding.md R57). The refusal of a table that is not admissible is
the model's choice (log entry 12). -/
def Obligations.StepFollowsTheDecoder : Prop :=
  ∀ (s : State) (bytes : List Byte), s.status = .busy →
    s.readSpan s.cur (s.len - s.cur) = some bytes →
    (decode s.layout bytes = .empty → step s = .next { s with status := .doneOk }) ∧
    (∀ t, decode s.layout bytes = .unrecognizedTag t →
      step s = .next (s.raise .unrecognizedTag s.cur t none)) ∧
    (∀ t n, decode s.layout bytes = .truncated t n →
      step s = .next (s.raise .truncatedPayload s.cur t (some n))) ∧
    (∀ t n rest, decode s.layout bytes = .skip t n rest →
      step s = .next { s with cur := s.cur + n + 1 }) ∧
    (∀ t, decode s.layout bytes = .misfit t →
      step s = .refused (.inadmissibleEntry t) ∧ s.layout.admissible = false)

/-- 41_field_decoders.md R87: a TEMP record in the buffer writes the signed big-endian tenths, whose
tenth is the value in °C; a truncated one raises the error before the decoder runs. -/
def Obligations.TempRecordInTheBuffer : Prop :=
  ∀ s : State, s.status = .busy → s.layout.admissible = true →
    (∀ p0 p1 : Byte, s.readSpan s.cur 3 = some [0x01, p0, p1] →
      ∃ t, step s = .next t ∧
        t = { s with record := { s.record with temperature := some (be16 p0 p1) }, cur := s.cur + 3 } ∧
        t.record.temperatureValid = true ∧
        (∀ d, t.record.decoded = .ok d →
          d.temperature = some (sext16 (be16 p0 p1)) ∧
          d.celsius = some ((sext16 (be16 p0 p1) : ℚ) / 10))) ∧
    (s.memRead s.cur = some 0x01 → s.len ≤ s.cur + 2 →
      step s = .next (s.raise .truncatedPayload s.cur 0x01 (some 2))) ∧
    sext16 (be16 0x00 0x00) = 0 ∧ sext16 (be16 0x7F 0xFF) = 32767 ∧
    sext16 (be16 0x80 0x00) = -32768 ∧ sext16 (be16 0xFF 0xFF) = -1 ∧ sext16 (be16 0x00 0xDC) = 220

/-- 41_field_decoders.md R88: a CO2 record in the buffer writes the unsigned big-endian ppm. -/
def Obligations.Co2RecordInTheBuffer : Prop :=
  ∀ s : State, s.status = .busy → s.layout.admissible = true →
    (∀ p0 p1 : Byte, s.readSpan s.cur 3 = some [0x06, p0, p1] →
      ∃ t, step s = .next t ∧
        t = { s with record := { s.record with co2 := some (be16 p0 p1) }, cur := s.cur + 3 } ∧
        t.record.co2Valid = true ∧
        (∀ d, t.record.decoded = .ok d → d.co2 = some (p0.toNat * 256 + p1.toNat))) ∧
    (s.memRead s.cur = some 0x06 → s.len ≤ s.cur + 2 →
      step s = .next (s.raise .truncatedPayload s.cur 0x06 (some 2)))

/-- 41_field_decoders.md R89: a BAT record in the buffer writes the unsigned big-endian millivolts. -/
def Obligations.BatteryRecordInTheBuffer : Prop :=
  ∀ s : State, s.status = .busy → s.layout.admissible = true →
    (∀ p0 p1 : Byte, s.readSpan s.cur 3 = some [0x07, p0, p1] →
      ∃ t, step s = .next t ∧
        t = { s with record := { s.record with batteryMv := some (be16 p0 p1) }, cur := s.cur + 3 } ∧
        t.record.batteryValid = true ∧
        (∀ d, t.record.decoded = .ok d →
          d.batteryMv = some (p0.toNat * 256 + p1.toNat) ∧
          d.volts = some (((p0.toNat * 256 + p1.toNat : Nat) : ℚ) / 1000))) ∧
    (s.memRead s.cur = some 0x07 → s.len ≤ s.cur + 2 →
      step s = .next (s.raise .truncatedPayload s.cur 0x07 (some 2)))

/-- 41_field_decoders.md R90: an OCC record in the buffer selects the named state, or raises
`InvalidEnumValue` with the payload byte and its index and writes no field. -/
def Obligations.OccupancyRecordInTheBuffer : Prop :=
  ∀ s : State, s.status = .busy → s.layout.admissible = true →
    (∀ (b : Byte) (o : Occupancy), s.readSpan s.cur 2 = some [0x05, b] →
      (b = 0x00 ∧ o = .noBody ∨ b = 0x01 ∧ o = .pendingOrPir ∨ b = 0x02 ∧ o = .occupiedOrHeat) →
      ∃ t, step s = .next t ∧
        t = { s with record := { s.record with occupancy := some o.code }, cur := s.cur + 2 } ∧
        t.record.occupancyValid = true ∧ (∀ d, t.record.decoded = .ok d → d.occupancy = some o)) ∧
    (∀ b : Byte, s.readSpan s.cur 2 = some [0x05, b] → 0x03 ≤ b.toNat →
      step s = .next (s.raise .invalidEnumValue (s.cur + 1) b none)) ∧
    (s.memRead s.cur = some 0x05 → s.len ≤ s.cur + 1 →
      step s = .next (s.raise .truncatedPayload s.cur 0x05 (some 1)))

/-- 41_field_decoders.md R91: an EXTD record in the buffer, under whatever identifier the table gives it,
writes the contact state, or raises `InvalidEnumValue`. -/
def Obligations.ContactRecordInTheBuffer : Prop :=
  ∀ s : State, s.status = .busy → s.layout.admissible = true →
    (∀ (b : Byte) (d : Bool), s.readSpan s.cur 2 = some [s.layout.extdTag, b] →
      (b = 0x00 ∧ d = false ∨ b = 0x01 ∧ d = true) →
      ∃ t, step s = .next t ∧
        t = { s with record := { s.record with externalDigital := some d }, cur := s.cur + 2 } ∧
        t.record.contactValid = true ∧ (∀ r, t.record.decoded = .ok r → r.externalDigital = some d)) ∧
    (∀ b : Byte, s.readSpan s.cur 2 = some [s.layout.extdTag, b] → 0x02 ≤ b.toNat →
      step s = .next (s.raise .invalidEnumValue (s.cur + 1) b none)) ∧
    (s.memRead s.cur = some s.layout.extdTag → s.len ≤ s.cur + 1 →
      step s = .next (s.raise .truncatedPayload s.cur s.layout.extdTag (some 1)))

/-- 41_field_decoders.md R92: a record of any no-op entry of the table is consumed without a read of its
payload: the step needs the tag alone of the buffer, whatever it holds after it. It sets no field and no
flag, and the decoder raises no error. -/
def Obligations.NoopEntryConsumesItsSpan : Prop :=
  ∀ (s : State) (e : Entry), s.status = .busy → s.layout.admissible = true → e ∈ s.layout →
    e.dec = .noop → s.memRead s.cur = some e.id →
    (s.len > s.cur + e.size → step s = .next { s with cur := s.cur + e.size + 1 }) ∧
    (s.len ≤ s.cur + e.size →
      step s = .next (s.raise .truncatedPayload s.cur e.id (some e.size)))

/-- 41_field_decoders.md R93: tag 0x04 is a no-op of the table's size `L4`. -/
def Obligations.LightRecordConsumesL4 : Prop :=
  ∀ (s : State) (n : Nat), s.status = .busy → s.layout.admissible = true →
    s.layout.lightSize = some n → s.memRead s.cur = some 0x04 →
    (s.len > s.cur + n → step s = .next { s with cur := s.cur + n + 1 }) ∧
    (s.len ≤ s.cur + n → step s = .next (s.raise .truncatedPayload s.cur 0x04 (some n)))

/-- The no-op rows of the reference table (41_field_decoders.md R94 to R116): each identifier with its
size. Rests on the model's choice of table (PRESUMED, log entry 1). -/
def Obligations.ReferenceNoopRows : Prop :=
  ∀ (s : State) (t : Byte) (n : Nat), s.status = .busy → s.layout = layoutRef →
    s.memRead s.cur = some t →
    (t.toNat, n) ∈ [(0x02, 1), (0x03, 3), (0x04, 2), (0x08, 2), (0x09, 6), (0x0A, 2), (0x0B, 4), (0x0C, 2),
      (0x0E, 2), (0x0F, 1), (0x10, 4), (0x11, 1), (0x12, 1), (0x13, 65), (0x14, 4), (0x15, 2), (0x16, 2),
      (0x17, 4), (0x18, 2), (0x19, 2), (0x1A, 1), (0x1B, 4), (0x1C, 2), (0x3D, 4)] →
    (s.len > s.cur + n → step s = .next { s with cur := s.cur + n + 1 }) ∧
    (s.len ≤ s.cur + n → step s = .next (s.raise .truncatedPayload s.cur t (some n)))

/-! ## Dispatch, errors and status -/

/-- 40_dispatch.md R71: at the end of the buffer the step reads nothing, changes no field, sets
`DONE_OK`, and the response is the accumulated record. -/
def Obligations.LoopExitSucceeds : Prop :=
  ∀ s : State, s.status = .busy → s.cur ≥ s.len →
    step s = .next { s with status := .doneOk } ∧
    ({ s with status := .doneOk } : State).readStatus = 2 ∧
    (∀ m, step { s with mem := m } = .next { s with mem := m, status := .doneOk }) ∧
    (∀ d, s.record.decoded = .ok d → ({ s with status := .doneOk } : State).response = .ok (.ok d)) ∧
    (s.Inv → s.cur = s.len)

/-- 40_dispatch.md R72 and 60_exceptions.md R132: a byte at the cursor that is no tag of the table ends
the decode with `UnrecognizedTag`, whatever bytes follow. -/
def Obligations.UnknownTagEndsTheDecode : Prop :=
  ∀ (s : State) (b : Byte), s.status = .busy → s.memRead s.cur = some b → s.layout.lookup b = none →
    ∃ t, step s = .next t ∧ t.status = .doneErr ∧ t.cur = s.cur ∧ t.mem = s.mem ∧ t.len = s.len ∧
      t.layout = s.layout ∧ t.err.kind = 1 ∧ t.err.index = s.cur ∧ t.err.byte = b ∧
      t.response = .ok (.error (.unrecognizedTag s.cur b)) ∧
      t.readErrSize = .error .errSizeNotReadable ∧ t.readRecord = .error .recordNotReadable ∧
      (s.layout.admissible = true → s.layout.lookup 0x20 = none)

/-- 40_dispatch.md R73 and 60_exceptions.md R133: the strict bounds check. A known tag whose payload
would run past the end ends the decode with `TruncatedPayload`; a record that fits, even one that ends
on the buffer's last byte, does not raise it. -/
def Obligations.BoundsCheckIsStrict : Prop :=
  ∀ (s : State) (b : Byte) (e : Entry), s.status = .busy → s.memRead s.cur = some b →
    s.layout.lookup b = some e →
    (s.len > s.cur + e.size ↔ ∀ k, s.cur + 1 ≤ k → k ≤ s.cur + e.size → k < s.len) ∧
    (¬ s.len > s.cur + e.size →
      ∃ t, step s = .next t ∧ t.status = .doneErr ∧ t.cur = s.cur ∧ t.mem = s.mem ∧ t.len = s.len ∧
        t.layout = s.layout ∧ t.err = ⟨2, s.cur, b, e.size⟩ ∧
        t.response = .ok (.error (.truncatedPayload s.cur b e.size)) ∧
        t.readErrSize = .ok e.size) ∧
    (s.len > s.cur + e.size → ∀ t, step s = .next t →
      t.status = .doneErr → t.readErrKind = .ok .invalidEnumValue)

/-- 60_exceptions.md R134: an illegal byte of an OCC or EXTD record ends the decode with
`InvalidEnumValue`, with the observed byte and its index. -/
def Obligations.IllegalEnumByteEndsTheDecode : Prop :=
  ∀ (s : State) (g b : Byte) (e : Entry), s.status = .busy → s.layout.lookup g = some e → e.size = 1 →
    s.readSpan s.cur 2 = some [g, b] →
    (e.dec = .occ ∧ b.toNat ∉ [0, 1, 2] ∨ e.dec = .extd ∧ b.toNat ∉ [0, 1]) →
    ∃ t, step s = .next t ∧ t.status = .doneErr ∧ t.cur = s.cur ∧ t.mem = s.mem ∧ t.len = s.len ∧
      t.layout = s.layout ∧ t.err.kind = 3 ∧ t.err.index = s.cur + 1 ∧ t.err.byte = b ∧
      s.memRead (s.cur + 1) = some b ∧
      t.response = .ok (.error (.invalidEnumValue (s.cur + 1) b)) ∧
      t.readErrSize = .error .errSizeNotReadable

/-- 60_exceptions.md R136: the checks run in the order lookup, bounds, decoder, so an earlier error hides
a later one: a tag with no entry and no room is unrecognized, and an OCC tag with no room is truncated,
never an illegal value. -/
def Obligations.ErrorPriorityIsCheckOrder : Prop :=
  (∀ (s t : State) (b : Byte), s.status = .busy → s.memRead s.cur = some b → step s = .next t →
    t.status = .doneErr →
    (t.readErrKind = .ok .unrecognizedTag ↔ s.layout.lookup b = none) ∧
    (t.readErrKind = .ok .truncatedPayload ↔ ∃ e, s.layout.lookup b = some e ∧ s.len ≤ s.cur + e.size) ∧
    (t.readErrKind = .ok .invalidEnumValue ↔ ∃ e, s.layout.lookup b = some e ∧ s.len > s.cur + e.size)) ∧
  (∀ s : State, s.layout.admissible = true →
    ∃ t, step (s.latch [0x05]) = .next t ∧ t.response = .ok (.error (.truncatedPayload 0 0x05 1)))

/-- 60_exceptions.md R138: raising an error writes the status and the error registers, discards the
record, leaves the cursor, and saves and changes nothing else. That the discarded record reads empty is
the model's choice (log entry 5); `draws` is the model's own counter (log entry 4). -/
def Obligations.ErrorEntryWritesStatusAndRegisters : Prop :=
  ∀ (s : State) (k : ErrKind) (index : Nat) (byte : Byte) (size : Option Nat),
    (s.raise k index byte size) =
      { s with
        status := .doneErr
        err := ⟨k.code, index, byte, (s.raise k index byte size).err.size⟩
        record := .empty
        draws := s.draws + 1 } ∧
    (∀ n, size = some n → (s.raise k index byte size).err.size = n) ∧
    (s.raise k index byte size).readStatus = 3 ∧
    ErrKind.unrecognizedTag.code = 1 ∧ ErrKind.truncatedPayload.code = 2 ∧
    ErrKind.invalidEnumValue.code = 3

/-- Every step that ends a decode with an error is one of the rows of 60_exceptions.md R135, at the
record at the cursor, and nothing of the step before the error is kept (R137, R139). That the discarded
record reads empty, which `raise` says, is the model's choice (log entry 5). -/
def Obligations.EveryErrorIsARowOfTheTable : Prop :=
  ∀ s t : State, s.status = .busy → step s = .next t → t.status = .doneErr →
    (∃ b, s.memRead s.cur = some b ∧ s.layout.lookup b = none ∧
      t = s.raise .unrecognizedTag s.cur b none) ∨
    (∃ b e, s.memRead s.cur = some b ∧ s.layout.lookup b = some e ∧ s.len ≤ s.cur + e.size ∧
      t = s.raise .truncatedPayload s.cur b (some e.size)) ∨
    (∃ g e b, s.memRead s.cur = some g ∧ s.layout.lookup g = some e ∧ s.len > s.cur + e.size ∧
      s.memRead (s.cur + 1) = some b ∧
      (e.dec = .occ ∧ b.toNat ∉ [0, 1, 2] ∨ e.dec = .extd ∧ b.toNat ∉ [0, 1]) ∧
      t = s.raise .invalidEnumValue (s.cur + 1) b none)

/-- While `BUSY` and after an error the host cannot read the record (10_state.md R35), and an error leaves
the same state whatever the record under construction held. The spec says of the discarded record only
that it never becomes observable; that its hidden registers, too, come out the same is the model's choice
(log entry 5: a discarded record becomes the empty one). -/
def Obligations.PartialRecordStaysHidden : Prop :=
  (∀ s : State, s.status = .busy ∨ s.status = .doneErr → s.readRecord = .error .recordNotReadable) ∧
  (∀ (s t : State) (r : Record), s.status = .busy → step s = .next t → t.status = .doneErr →
    step { s with record := r } = .next t)

/-- 40_dispatch.md R76: a step that leaves the decode in progress moves the cursor past the tag and the
payload of the record at the cursor, forward and at most to `N`, and changes no status or error
register. -/
def Obligations.AcceptedRecordAdvancesTheCursor : Prop :=
  ∀ s t : State, s.status = .busy → step s = .next t → t.status = .busy →
    ∃ b e, s.memRead s.cur = some b ∧ s.layout.lookup b = some e ∧ t.cur = s.cur + e.size + 1 ∧
      s.cur < t.cur ∧ t.cur ≤ s.len ∧ t.err = s.err ∧ t.draws = s.draws

/-- 10_state.md R24: the transitions of `status`. A request moves every status but `BUSY` to `BUSY` and
starts over; a step at the end of the buffer moves `BUSY` to `DONE_OK`, a step that raises an error moves
it to `DONE_ERR`, and no step makes another transition; a request while `BUSY` is not admitted. -/
def Obligations.StatusTransitions : Prop :=
  (∀ s t : State, step s = .next t →
    (s.status ≠ .busy → t.status = s.status) ∧
    (s.status = .busy → t.status ≠ .idle ∧ (t.status = .doneOk ↔ s.cur ≥ s.len) ∧
      (t.status = .doneErr ↔ ∃ k index byte size, t = s.raise k index byte size))) ∧
  (∀ (s t : State) (bytes : List Byte), s.request bytes = .next t →
    s.status ≠ .busy ∧ t.status = .busy ∧ t.cur = 0 ∧ t.record = .empty ∧
      t.readErr = .error .errNotReadable) ∧
  (∀ (s : State) (bytes : List Byte), s.status ≠ .busy → admitsLength bytes.length = true →
    ∃ t, s.request bytes = .next t) ∧
  (∀ (s : State) (bytes : List Byte), s.status = .busy → s.request bytes = .refused .requestWhileBusy)

/-- 60_exceptions.md R150: outside `BUSY` a step does nothing and holds the state, and an admitted request
moves it to `BUSY`. -/
def Obligations.BlockHoldsStateOutsideBusy : Prop :=
  ∀ s : State, s.status = .idle ∨ s.status = .doneOk ∨ s.status = .doneErr →
    step s = .next s ∧
    (∀ bytes : List Byte, admitsLength bytes.length = true →
      ∃ t, s.request bytes = .next t ∧ t.status = .busy)

/-- No step, and no record's meaning, writes the input buffer, its length or the table; a request and a
reset leave the table, too; an admissible table has 29 entries (20_memory.md R41, 10_state.md R26). -/
def Obligations.BufferAndLayoutAreNeverWritten : Prop :=
  (∀ s t : State, (step s = .next t ∨ ∃ i, exec i s = .next t) →
    t.mem = s.mem ∧ t.len = s.len ∧ t.layout = s.layout ∧ ∀ a, t.memRead a = s.memRead a) ∧
  (∀ (s t : State) (bytes : List Byte), s.request bytes = .next t → t.layout = s.layout) ∧
  (∀ s : State, s.powerOnReset.layout = s.layout) ∧
  (∀ L : Layout, L.admissible = true → L.length = 29)

/-- 10_state.md R21, R32: every flag is clear at the start of a decode; a step that keeps the decode in
progress clears none, and sets only the flag of the decoder of the record at the cursor. -/
def Obligations.PresenceFlagsFollowTheDecoders : Prop :=
  (∀ (s : State) (bytes : List Byte), (s.latch bytes).record = .empty ∧
    Record.empty.temperatureValid = false ∧ Record.empty.co2Valid = false ∧
    Record.empty.batteryValid = false ∧ Record.empty.occupancyValid = false ∧
    Record.empty.contactValid = false) ∧
  (∀ s t : State, s.status = .busy → step s = .next t → t.status = .busy →
    ∃ b e, s.memRead s.cur = some b ∧ s.layout.lookup b = some e ∧
      (t.record.temperatureValid = (s.record.temperatureValid || decide (e.dec = .temp))) ∧
      (t.record.co2Valid = (s.record.co2Valid || decide (e.dec = .co2))) ∧
      (t.record.batteryValid = (s.record.batteryValid || decide (e.dec = .bat))) ∧
      (t.record.occupancyValid = (s.record.occupancyValid || decide (e.dec = .occ))) ∧
      (t.record.contactValid = (s.record.contactValid || decide (e.dec = .extd))))

/-! ## Requests, reset and the host's reads -/

/-- 70_reset R151: a request within `MAX_LEN` outside `BUSY` latches the buffer and starts a decode with
an empty record at cursor 0, and the previous result is lost; any other request is not admitted. -/
def Obligations.RequestStartsADecode : Prop :=
  (∀ n : Nat, admitsLength n = true ↔ ∀ bound, Config.maxLen = some bound → n ≤ bound) ∧
  (∀ (s : State) (bytes : List Byte), s.status ≠ .busy → admitsLength bytes.length = true →
    ∃ t, s.request bytes = .next t ∧ t.status = .busy ∧ t.readStatus = 1 ∧ t.cur = 0 ∧
      t.record = .empty ∧ t.len = bytes.length ∧ (∀ a, t.memRead a = bytes[a]?) ∧ t.bufferFilled ∧
      t.layout = s.layout ∧
      t.readErr = .error .errNotReadable ∧ t.response = .error .recordNotReadable) ∧
  (∀ (s : State) (bytes : List Byte), s.status = .busy ∨ admitsLength bytes.length = false →
    ∃ r, s.request bytes = .refused r)

/-- 10_state.md R37: the state after reset, and that a request gives it again but for the status and the
buffer. What the unspecified registers hold is not stated: a read of them is a fault. -/
def Obligations.ResetStateIsIdleAndEmpty : Prop :=
  State.reset.status = .idle ∧ State.reset.readStatus = 0 ∧ State.reset.cur = 0 ∧ State.reset.record = .empty ∧
  State.reset.readErr = .error .errNotReadable ∧
  State.reset.readRecord = .error .recordNotReadable ∧
  (∀ (s : State) (bytes : List Byte), (s.latch bytes).status = .busy ∧ (s.latch bytes).cur = 0 ∧
    (s.latch bytes).record = .empty ∧ (s.latch bytes).layout = s.layout ∧
    (s.latch bytes).len = bytes.length)

/-- 70_reset R152: power-on reset in any state leaves the block `IDLE`, with no record and no error
observable. -/
def Obligations.PowerOnResetAbandonsTheDecode : Prop :=
  ∀ s : State, s.powerOnReset.status = .idle ∧ s.powerOnReset.cur = 0 ∧
    s.powerOnReset.record = .empty ∧ s.powerOnReset.layout = s.layout ∧
    s.powerOnReset.readRecord = .error .recordNotReadable ∧
    s.powerOnReset.readErr = .error .errNotReadable ∧
    s.powerOnReset.response = .error .recordNotReadable

/-- 10_state.md R25, 70_reset R157: what the host reads of the error registers, and when. -/
def Obligations.ErrorRegistersReadableOnlyAfterAnError : Prop :=
  ∀ s : State,
    (s.status ≠ .doneErr →
      s.readErrKind = .error .errNotReadable ∧ s.readErrIndex = .error .errNotReadable ∧
      s.readErrByte = .error .errNotReadable ∧ s.readErrSize = .error .errNotReadable) ∧
    (∀ k : ErrKind, s.status = .doneErr → s.err.kind = k.code →
      s.readErrKind = .ok k ∧ s.readErrIndex = .ok s.err.index ∧ s.readErrByte = .ok s.err.byte ∧
      s.readErrSize = if k = .truncatedPayload then .ok s.err.size else .error .errSizeNotReadable)

/-- 20_memory.md R39: in a sound state the buffer reads exactly at the indices `0..N-1`. -/
def Obligations.BufferReadsItsIndices : Prop :=
  ∀ s : State, s.Inv → ∀ a, (∃ b, s.memRead a = some b) ↔ a < s.len

/-- 42_record_views R122 to R124: with temperature in integer tenths, the approximate comparison and
record equality are exact. -/
def Obligations.RecordEqualityIsExact : Prop :=
  (∀ u v : Int, tempEq (some u) (some v) = true ↔ u = v) ∧
  (tempEq none none = true ∧ ∀ u : Int, tempEq (some u) none = false ∧ tempEq none (some u) = false) ∧
  (∀ a b : DecodedRecord, recordEq a b = true ↔ a = b)

/-- 42_record_views R126 to R130, 92 D28 and 93 U6: once `DONE_OK` each exact view is the register's value
in its unit, and a raw read of a value register is that value, or a fault where the field is absent; at
any other status every view and every raw read is a fault. The values of the float views are in
`FloatViewsRoundToNearestEven`. -/
def Obligations.ViewsProjectTheRecord : Prop :=
  (∀ (α : Type) (v : α), readValueRegister (some v) = .ok v) ∧
  (∀ α : Type, readValueRegister (none : Option α) = .error .absentField) ∧
  ∀ (s : State) (fmt : FloatFmt),
    (s.status ≠ .doneOk →
      s.viewCelsius = .error .recordNotReadable ∧ s.viewCelsiusFloat fmt = .error .recordNotReadable ∧
      s.viewCo2 = .error .recordNotReadable ∧ s.viewVolts = .error .recordNotReadable ∧
      s.viewVoltsFloat fmt = .error .recordNotReadable ∧
      s.viewMillivolts = .error .recordNotReadable ∧ s.viewOccupancy = .error .recordNotReadable ∧
      s.viewContact = .error .recordNotReadable ∧
      ∀ (α : Type) (field : DecodedRecord → Option α),
        s.readRegister field = .error .recordNotReadable) ∧
    (s.status = .doneOk → s.record.occupancy ≠ some 3 →
      s.viewCelsius = .ok (s.record.temperature.map (fun v => (sext16 v : ℚ) / 10)) ∧
      (∀ x, s.viewCelsius = .ok (some x) → (-32768 : ℚ) / 10 ≤ x ∧ x ≤ 32767 / 10) ∧
      s.viewCo2 = .ok (s.record.co2.map BitVec.toNat) ∧
      s.viewVolts = .ok (s.record.batteryMv.map (fun v => (v.toNat : ℚ) / 1000)) ∧
      s.viewMillivolts = .ok (s.record.batteryMv.map BitVec.toNat) ∧
      (∃ o, s.viewOccupancy = .ok o ∧ o.map Occupancy.code = s.record.occupancy ∧
        s.readRegister DecodedRecord.occupancy = readValueRegister o) ∧
      s.viewContact = .ok s.record.externalDigital ∧
      s.readRegister DecodedRecord.temperature = readValueRegister (s.record.temperature.map sext16) ∧
      s.readRegister DecodedRecord.co2 = readValueRegister (s.record.co2.map BitVec.toNat) ∧
      s.readRegister DecodedRecord.batteryMv =
        readValueRegister (s.record.batteryMv.map BitVec.toNat) ∧
      s.readRegister DecodedRecord.externalDigital = readValueRegister s.record.externalDigital)

/-- 42_record_views R126, R128: once `DONE_OK` the float temperature view rounds the magnitude of the
signed register over 10, with its sign, and the float battery view the register over 1000. Rounding is to
the nearest number of the format, ties to even; only a magnitude past the largest normal binade becomes
an infinity, and a zero count becomes zero. The unit `2 ^ q` is that of the exact ratio's own binade, and
no number of the format without bound on the exponent is nearer. The rounding is the model's (PRESUMED,
log entry 7), and so is the term that stands for a number (DESIGN CHOICE, log entry 20). -/
def Obligations.FloatViewsRoundToNearestEven : Prop :=
  (∀ (s : State) (fmt : FloatFmt), s.status = .doneOk → s.record.occupancy ≠ some 3 →
    s.viewCelsiusFloat fmt = .ok (s.record.temperature.map (fun v =>
      roundRatio fmt (decide (sext16 v < 0)) (sext16 v).natAbs 10)) ∧
    s.viewVoltsFloat fmt = .ok (s.record.batteryMv.map (fun v =>
      roundRatio fmt false v.toNat 1000))) ∧
  (∀ (fmt : FloatFmt) (negative : Bool) (d : Nat),
    roundRatio fmt negative 0 d = .finite negative 0 (fmt.minExp - ((fmt.precision : Int) - 1))) ∧
  ∀ (fmt : FloatFmt) (negative : Bool) (n d : Nat), 1 ≤ fmt.precision → 0 < d →
    ∃ (m : Nat) (q : Int),
      fmt.minExp - ((fmt.precision : Int) - 1) ≤ q ∧
      (q = fmt.minExp - ((fmt.precision : Int) - 1) ∨
        (2 : ℚ) ^ (q + fmt.precision - 1) ≤ (n : ℚ) / d) ∧
      (n : ℚ) / d < 2 ^ (q + fmt.precision) ∧
      |(m : ℚ) * 2 ^ q - (n : ℚ) / d| ≤ 2 ^ q / 2 ∧
      (|(m : ℚ) * 2 ^ q - (n : ℚ) / d| = 2 ^ q / 2 → m % 2 = 0) ∧
      m ≤ 2 ^ fmt.precision ∧
      (∀ (m' : Nat) (q' : Int), m' ≤ 2 ^ fmt.precision →
        fmt.minExp - ((fmt.precision : Int) - 1) ≤ q' →
        |(m : ℚ) * 2 ^ q - (n : ℚ) / d| ≤ |(m' : ℚ) * 2 ^ q' - (n : ℚ) / d|) ∧
      roundRatio fmt negative n d =
        if (2 : ℚ) ^ (fmt.maxExp + 1) ≤ (m : ℚ) * 2 ^ q then .infinite negative
        else if m = 2 ^ fmt.precision then .finite negative (2 ^ (fmt.precision - 1)) (q + 1)
        else .finite negative m q

/-! ## The whole machine -/

/-- The reset state meets the invariants of the state tuple. Its table and its empty buffer are the
model's choices (log entries 1 and 2). -/
def Obligations.ResetMeetsTheInvariants : Prop := State.reset.Inv

/-- 10_state.md R20, with the other invariants of the state tuple: every step keeps them. The clause that a
discarded record is empty is the model's choice (log entry 5). -/
def Obligations.StepKeepsTheInvariants : Prop :=
  ∀ s t : State, s.Inv → step s = .next t → t.Inv

/-- Requests and power-on reset keep the invariants of the state tuple. The clause that a discarded record
is empty is the model's choice (log entry 5). -/
def Obligations.HostMovesKeepTheInvariants : Prop :=
  (∀ (s t : State) (bytes : List Byte), s.Inv → s.request bytes = .next t → t.Inv) ∧
  (∀ s : State, s.Inv → s.powerOnReset.Inv)

/-- In a sound state no step faults and none is refused: every buffer read is in bounds (20_memory.md
R40), and an admissible table gives every record a meaning (30_encoding.md R57). -/
def Obligations.SoundStatesAlwaysStep : Prop :=
  ∀ s : State, s.Inv → ∃ t, step s = .next t

/-- A step is refused only under a table that is not admissible (30_encoding.md R57). The refusal is the
model's choice (log entry 12). -/
def Obligations.RefusalNeedsAnInadmissibleTable : Prop :=
  ∀ (s : State) (r : Refusal), step s = .refused r →
    s.layout.admissible = false ∧ ∃ t e, s.memRead s.cur = some t ∧ s.layout.lookup t = some e ∧
      r = .inadmissibleEntry t ∧ e.dec ≠ .noop

/-- A step reads no byte outside the record at the cursor, and of a no-op record the tag alone: another
buffer that agrees on the tag, and for a decoder that sets a field on the payload span, gives the same
step (41_field_decoders.md R85, R92, R117; 20_memory.md R43, R45). -/
def Obligations.StepReadsOnlyItsRecord : Prop :=
  ∀ (s t : State) (m : Memory) (b : Byte) (e : Entry), s.status = .busy → s.memRead s.cur = some b →
    s.layout.lookup b = some e →
    ({ s with mem := m } : State).memRead s.cur = s.memRead s.cur →
    (e.dec ≠ .noop → ∀ k, s.cur < k → k ≤ s.cur + e.size →
      ({ s with mem := m } : State).memRead k = s.memRead k) →
    step s = .next t → step { s with mem := m } = .next { t with mem := m }

/-- 70_reset R161 and 40_dispatch.md R79: a decode in progress ends within `N + 1` steps, and within one
step more than the bytes still ahead of the cursor. -/
def Obligations.DecodeTerminates : Prop :=
  ∀ s : State, s.Inv → s.status = .busy →
    ∃ k t, k ≤ s.len + 1 ∧ k ≤ s.len - s.cur + 1 ∧ Sys2Proof.core.run k s = .next t ∧
      (t.status = .doneOk ∨ t.status = .doneErr)

/-- 40_dispatch.md R77: from a request's state, `N + 1` steps answer what the document's function
`deserialize` answers, for every buffer and every admissible table. -/
def Obligations.SteppingRefinesDeserialize : Prop :=
  ∀ (s : State) (bytes : List Byte), s.layout.admissible = true →
    ∃ t r, Sys2Proof.core.run (bytes.length + 1) (s.latch bytes) = .next t ∧
      (t.status = .doneOk ∨ t.status = .doneErr) ∧
      deserialize s.layout bytes = some r ∧ t.response = .ok r

/-- 40_dispatch.md R78: the empty buffer succeeds with every field absent. -/
def Obligations.EmptyBufferSucceeds : Prop :=
  ∀ s : State, ∃ t, step (s.latch []) = .next t ∧ t.status = .doneOk ∧
    t.response = .ok (.ok .empty)

/-- 40_dispatch.md R81: the response depends on the buffer and the table alone: two decodes of one buffer,
whatever the instances went through before, answer alike after any number of steps. -/
def Obligations.ResponseDependsOnBufferAndTable : Prop :=
  ∀ (s s' t : State) (bytes : List Byte) (k : Nat), s.layout = s'.layout →
    Sys2Proof.core.run k (s.latch bytes) = .next t →
    ∃ t', Sys2Proof.core.run k (s'.latch bytes) = .next t' ∧ t'.status = t.status ∧
      t'.cur = t.cur ∧ t'.response = t.response

/-- 30_encoding.md R66: a buffer decodes successfully exactly when it is a concatenation of whole records,
each with a legal tag and a legal payload; the empty buffer is one. -/
def Obligations.SuccessIsConcatenationOfLegalRecords : Prop :=
  ∀ (s : State) (bytes : List Byte), s.layout.admissible = true →
    ((∃ t d, Sys2Proof.core.run (bytes.length + 1) (s.latch bytes) = .next t ∧
        t.response = .ok (.ok d)) ↔
      ∃ cs : List (List Byte), (∀ c ∈ cs, IsLegalRecord s.layout c) ∧ bytes = cs.flatten)

/-- 10_state.md R34: a buffer of no-op records only succeeds with every field absent. -/
def Obligations.NoopStreamLeavesEveryFieldAbsent : Prop :=
  ∀ (s : State) (cs : List (List Byte)), s.layout.admissible = true →
    (∀ c ∈ cs, ∃ e, IsRecordOf s.layout e c ∧ e.dec = .noop) →
    ∃ t, Sys2Proof.core.run (cs.flatten.length + 1) (s.latch cs.flatten) = .next t ∧
      t.status = .doneOk ∧ t.record = .empty ∧ t.response = .ok (.ok .empty)

/-- 20_memory.md R52, 60_exceptions.md R148, 40_dispatch.md R77: in any interleaving in which each instance
makes the moves of one decode of a buffer of its own, no move is turned away, and at the end each
instance's response is the document's `deserialize` of its own buffer. And moves of two instances
commute, and a move leaves every other instance as it was. That the instances stand in a list of states,
each with its own copy of the table, is the model's choice (log entry 17). -/
def Obligations.InstancesAreIndependent : Prop :=
  (∀ (ss : List State) (buffers : Nat → List Byte) (moves : List (Nat × Move)),
    (∀ (j : Nat) (s : State), ss[j]? = some s →
      s.layout.admissible = true ∧ IsDecodeOf s (buffers j) (movesOf j moves)) →
    ∃ ss', runMoves ss moves = .next ss' ∧ ss'.length = ss.length ∧
      ∀ (j : Nat) (s : State), ss[j]? = some s →
        ∃ t r, ss'[j]? = some t ∧ (t.status = .doneOk ∨ t.status = .doneErr) ∧
          t.layout = s.layout ∧ deserialize s.layout (buffers j) = some r ∧ t.response = .ok r) ∧
  (∀ (ss ss1 ss2 : List State) (j k : Nat) (a b : Move), j ≠ k →
    moveAt ss j a = .next ss1 → moveAt ss k b = .next ss2 →
    (∃ ss3, moveAt ss1 k b = .next ss3 ∧ moveAt ss2 j a = .next ss3) ∧
    (∀ l, l ≠ j → ss1[l]? = ss[l]?))
end

