-- ==== Sys2Proof/Laws/Operands.lean ====
section
/-! SUPPORT. What operand assembly answers: `be16`, SEXT16, the enumerations and the codes. -/

namespace Sys2Proof.Machine

theorem be16_toNat (p0 p1 : Byte) : (be16 p0 p1).toNat = p0.toNat * 256 + p1.toNat := by
  have h := p1.isLt
  simp only [be16, BitVec.toNat_append, Nat.shiftLeft_eq]
  rw [← Nat.shiftLeft_eq, ← Nat.shiftLeft_add_eq_or_of_lt h, Nat.shiftLeft_eq]

theorem be16_high_low (v : Half) : be16 (highByte v) (lowByte v) = v := by
  apply BitVec.eq_of_toNat_eq
  have h := v.isLt
  rw [be16_toNat]
  simp [highByte, lowByte, Nat.shiftRight_eq_div_pow]
  omega

theorem highByte_be16 (p0 p1 : Byte) : highByte (be16 p0 p1) = p0 := by
  apply BitVec.eq_of_toNat_eq
  have h0 := p0.isLt
  have h1 := p1.isLt
  simp [highByte, be16_toNat, Nat.shiftRight_eq_div_pow]
  omega

theorem lowByte_be16 (p0 p1 : Byte) : lowByte (be16 p0 p1) = p1 := by
  apply BitVec.eq_of_toNat_eq
  have h1 := p1.isLt
  simp [lowByte, be16_toNat]
  omega

theorem getLsbD_fifteen (v : Half) : v.getLsbD 15 = decide (32768 ≤ v.toNat) := by
  have h := v.isLt
  rw [BitVec.getLsbD, Nat.testBit_eq_decide_div_mod_eq]
  congr 1
  simp only [eq_iff_iff]
  omega

/-- SEXT16 is the signed reading of the 16 bits. -/
theorem sext16_eq_toInt (v : Half) : sext16 v = v.toInt := by
  have h := v.isLt
  rw [BitVec.toInt_eq_toNat_cond, sext16, getLsbD_fifteen]
  by_cases hv : 32768 ≤ v.toNat
  · rw [if_neg (by simp [hv]), if_neg (by omega)]; norm_num
  · rw [if_pos (by simp [hv]), if_pos (by omega)]

/-- The temperature register holds the payload's bits unchanged. -/
@[simp] theorem ofInt_sext16 (v : Half) : BitVec.ofInt 16 (sext16 v) = v := by
  rw [sext16_eq_toInt, BitVec.ofInt_toInt]

@[simp] theorem ofCode_code (o : Occupancy) : Occupancy.ofCode o.code = some o := by
  cases o <;> rfl

theorem occupancy_code_ne_three (o : Occupancy) : o.code ≠ 3 := by
  cases o <;> decide

@[simp] theorem errKind_ofCode_code (k : ErrKind) : ErrKind.ofCode k.code = some k := by
  cases k <;> rfl

theorem errKind_code_ne_zero (k : ErrKind) : k.code ≠ 0 := by
  cases k <;> decide

/-- The payload byte that selects an occupancy state is its code (R30, R90). -/
theorem occupancyOf_eq_some_iff (b : Byte) (o : Occupancy) :
    occupancyOf b = some o ↔ b.toNat = o.code.toNat := by
  unfold occupancyOf
  split <;> cases o <;> simp_all [Occupancy.code]

theorem occupancyOf_eq_none_iff (b : Byte) : occupancyOf b = none ↔ 3 ≤ b.toNat := by
  unfold occupancyOf
  split <;> simp_all
  omega

theorem contactOf_eq_some_iff (b : Byte) (d : Bool) : contactOf b = some d ↔ b.toNat = d.toNat := by
  unfold contactOf
  split <;> cases d <;> simp_all

theorem contactOf_eq_none_iff (b : Byte) : contactOf b = none ↔ 2 ≤ b.toNat := by
  unfold contactOf
  split <;> simp_all
  omega

end Sys2Proof.Machine
end

