-- ==== Sys2Proof/Laws/Decode.lean ====
section
/-!
SUPPORT. What the Layout Table, its lookup and an entry answer: the constraints of an admissible table
one by one, and what a record spelled by an entry is.
-/

namespace Sys2Proof

open Machine

/-- The constraints of an admissible table that proofs use (30_encoding.md R57). -/
theorem Layout.admissible_parts {L : Layout} (h : L.admissible = true) :
    L.length = 29 ∧ ⟨0x01, 2, .temp⟩ ∈ L ∧ ⟨0x05, 1, .occ⟩ ∈ L ∧ ⟨0x06, 2, .co2⟩ ∈ L ∧
      ⟨0x07, 2, .bat⟩ ∈ L ∧ (∃ e ∈ L, e.id = 0x04 ∧ e.dec = .noop) ∧
      (∃ e ∈ L, e.dec = .extd ∧ e.size = 1) ∧
      (∀ d, d ≠ .noop → L.servesOnce d = true) ∧
      (∀ e ∈ L, e.fixedOrNoop = true) ∧ (∀ e ∈ L, e.id ≠ 0x20) ∧ (L.map Entry.id).Nodup := by
  simp only [Layout.admissible, Bool.and_eq_true, decide_eq_true_eq, List.contains_iff_mem,
    List.any_eq_true, List.all_eq_true] at h
  obtain ⟨⟨⟨⟨⟨⟨⟨⟨⟨⟨h1, h2⟩, h3⟩, h4⟩, h5⟩, h6⟩, h7⟩, h8⟩, h9⟩, h10⟩, h11⟩ := h
  obtain ⟨⟨⟨⟨ht, hc⟩, hb⟩, ho⟩, he⟩ := h8
  refine ⟨h1, h2, h3, h4, h5, h6, h7, ?_, h9, h10, h11⟩
  intro d hd
  cases d <;> first | assumption | exact absurd rfl hd

theorem Layout.admissible_nodup {L : Layout} (h : L.admissible = true) : (L.map Entry.id).Nodup :=
  (Layout.admissible_parts h).2.2.2.2.2.2.2.2.2.2

theorem Layout.admissible_fixedOrNoop {L : Layout} (h : L.admissible = true) {e : Entry} (he : e ∈ L) :
    e.fixedOrNoop = true :=
  (Layout.admissible_parts h).2.2.2.2.2.2.2.2.1 e he

/-- A lookup answers an entry of the table with that identifier. -/
theorem Layout.lookup_mem {L : Layout} {t : Byte} {e : Entry} (h : L.lookup t = some e) :
    e ∈ L ∧ e.id = t := by
  induction L with
  | nil => cases h
  | cons x L ih =>
    simp only [Layout.lookup] at h
    split at h
    · rename_i hx
      cases h
      exact ⟨List.mem_cons_self, hx⟩
    · exact ⟨List.mem_cons_of_mem _ (ih h).1, (ih h).2⟩

theorem Layout.lookup_none {L : Layout} {t : Byte} (h : L.lookup t = none) {e : Entry} (he : e ∈ L) :
    e.id ≠ t := by
  induction L with
  | nil => cases he
  | cons x L ih =>
    simp only [Layout.lookup] at h
    split at h
    · cases h
    · rename_i hx
      rcases List.mem_cons.1 he with rfl | he
      · exact hx
      · exact ih h he

/-- With distinct identifiers, an entry of the table is what its identifier looks up. -/
theorem Layout.lookup_of_mem {L : Layout} (hn : (L.map Entry.id).Nodup) {e : Entry} (he : e ∈ L) :
    L.lookup e.id = some e := by
  induction L with
  | nil => cases he
  | cons x L ih =>
    simp only [List.map_cons, List.nodup_cons, List.mem_map, not_exists, not_and] at hn
    rcases List.mem_cons.1 he with rfl | he
    · simp [Layout.lookup]
    · have hx : x.id ≠ e.id := fun hx => hn.1 e he hx.symm
      simp [Layout.lookup, hx, ih hn.2 he]

theorem Layout.lookup_admissible {L : Layout} (h : L.admissible = true) {e : Entry} (he : e ∈ L) :
    L.lookup e.id = some e :=
  Layout.lookup_of_mem (Layout.admissible_nodup h) he

/-- A decoder that serves one entry serves no second one (R57 item 8). -/
theorem Layout.servesOnce_unique {L : Layout} {d : Decoder} (h : L.servesOnce d = true) {e e' : Entry}
    (he : e ∈ L) (hd : e.dec = d) (he' : e' ∈ L) (hd' : e'.dec = d) : e = e' := by
  simp only [Layout.servesOnce, decide_eq_true_eq] at h
  obtain ⟨x, hx⟩ := List.length_eq_one_iff.1 h
  have h1 : e ∈ L.filter (fun e => e.dec = d) := by simp [he, hd]
  have h2 : e' ∈ L.filter (fun e => e.dec = d) := by simp [he', hd']
  rw [hx, List.mem_singleton] at h1 h2
  rw [h1, h2]

theorem Layout.extdTag_mem {L : Layout} {e : Entry} (he : e ∈ L) (hd : e.dec = .extd) :
    ∃ x ∈ L, x.dec = .extd ∧ L.extdTag = x.id := by
  induction L with
  | nil => cases he
  | cons x L ih =>
    by_cases hx : x.dec = .extd
    · exact ⟨x, List.mem_cons_self, hx, by simp [Layout.extdTag, hx]⟩
    · rcases List.mem_cons.1 he with rfl | he
      · exact absurd hd hx
      · obtain ⟨y, hy, hyd, hyt⟩ := ih he
        exact ⟨y, List.mem_cons_of_mem _ hy, hyd, by simp [Layout.extdTag, hx, hyt]⟩

/-- `EXTD_TAG` is the identifier of the external-digital entry. -/
theorem Layout.extdTag_of_mem {L : Layout} (h : L.admissible = true) {e : Entry} (he : e ∈ L)
    (hd : e.dec = .extd) : L.extdTag = e.id := by
  obtain ⟨x, hx, hxd, hxt⟩ := Layout.extdTag_mem he hd
  have hs := (Layout.admissible_parts h).2.2.2.2.2.2.2.1 .extd (by decide)
  rw [hxt, Layout.servesOnce_unique hs hx hxd he hd]

/-- The shapes of the entries of an admissible table. -/
theorem Entry.fixedOrNoop_cases {e : Entry} (h : e.fixedOrNoop = true) :
    e.dec = .noop ∨ e = ⟨0x01, 2, .temp⟩ ∨ e = ⟨0x05, 1, .occ⟩ ∨ e = ⟨0x06, 2, .co2⟩ ∨
      e = ⟨0x07, 2, .bat⟩ ∨ (e.dec = .extd ∧ e.size = 1) := by
  simpa [Entry.fixedOrNoop, or_assoc] using h

/-- The row of a no-op identifier is a no-op record with that payload, well-formed where the table has
the entry. -/
theorem noopRow_some {id : Byte} {p : List Byte} {i : Instr} (h : noopRow id p = some i) (L : Layout) :
    i.payload = p ∧ i.tag L = id ∧ i.isNoop = true ∧
      i.wellFormed L = L.contains ⟨id, p.length, .noop⟩ := by
  have key : ∀ n : Nat, id.toNat = n → id = BitVec.ofNat 8 n := fun n hn => by
    rw [← hn, BitVec.ofNat_toNat, BitVec.setWidth_eq]
  unfold noopRow at h
  split at h <;> first | (cases h; done) | skip
  all_goals
    rename_i hid
    have hk := key _ hid
    cases h
    subst hk
    exact ⟨rfl, rfl, rfl, rfl⟩

/-- What a record that an entry spells says of the entry and the payload, whatever the table. -/
theorem Entry.spell_row {e : Entry} {p : List Byte} {i : Instr} (h : e.spell p = .row i) :
    i.payload = p ∧ i.isNoop = decide (e.dec = .noop) ∧
      (∀ b, i = .occ b → e.dec = .occ ∧ p = [b]) ∧ (∀ b, i = .extd b → e.dec = .extd ∧ p = [b]) := by
  unfold Entry.spell at h
  split at h
  case h_6 hd =>
    split at h <;> cases h
    rename_i hr
    obtain ⟨h1, _, h3, _⟩ := noopRow_some hr []
    refine ⟨h1, by simp [h3, hd], ?_, ?_⟩ <;> (rintro b rfl; simp [Instr.isNoop] at h3)
  case h_7 => cases h
  all_goals
    rename_i hd
    cases h
    simp [Instr.payload, Instr.isNoop, highByte_be16, lowByte_be16, hd]

/-- Only a no-op entry spells a record without a row. -/
theorem Entry.spell_otherNoop {e : Entry} {p : List Byte} (h : e.spell p = .otherNoop) :
    e.dec = .noop := by
  unfold Entry.spell at h
  split at h <;> first | assumption | cases h

/-- A no-op entry spells a no-op record with the payload, or one without a row. -/
theorem Entry.spell_noop {e : Entry} (h : e.dec = .noop) (p : List Byte) :
    e.spell p = .otherNoop ∨ ∃ i : Instr, e.spell p = .row i ∧ i.isNoop = true ∧ i.payload = p := by
  unfold Entry.spell
  rw [h]
  dsimp only
  cases hr : noopRow e.id p with
  | none => exact .inl rfl
  | some i =>
    obtain ⟨h1, _, h3, _⟩ := noopRow_some hr []
    exact .inr ⟨i, rfl, h3, h1⟩

/-- What an entry of an admissible table spells from a payload of its size. -/
theorem Entry.spell_cases {L : Layout} (h : L.admissible = true) {e : Entry} (he : e ∈ L)
    {p : List Byte} (hp : p.length = e.size) :
    (e.dec = .noop ∧ e.spell p = .otherNoop) ∨
      ∃ i : Instr, e.spell p = .row i ∧ i.wellFormed L = true ∧ i.payload = p ∧ i.tag L = e.id ∧
        i.isNoop = decide (e.dec = .noop) := by
  obtain ⟨id, size, dec⟩ := e
  rcases Entry.fixedOrNoop_cases (Layout.admissible_fixedOrNoop h he) with hd | hd | hd | hd | hd | hd
  · dsimp at hd hp
    subst hd
    cases hr : noopRow id p with
    | none => exact .inl ⟨rfl, by simp [Entry.spell, hr]⟩
    | some i =>
      obtain ⟨h1, h2, h3, h4⟩ := noopRow_some hr L
      refine .inr ⟨i, by simp [Entry.spell, hr], ?_, h1, h2, by simpa using h3⟩
      rw [h4, hp]
      simpa using he
  all_goals right
  · cases hd
    match p, hp with
    | [p0, p1], _ =>
      exact ⟨.temp (be16 p0 p1), rfl, by simpa [Instr.wellFormed] using he,
        by simp [Instr.payload, highByte_be16, lowByte_be16], rfl, rfl⟩
  · cases hd
    match p, hp with
    | [b], _ => exact ⟨.occ b, rfl, by simpa [Instr.wellFormed] using he, rfl, rfl, rfl⟩
  · cases hd
    match p, hp with
    | [p0, p1], _ =>
      exact ⟨.co2 (be16 p0 p1), rfl, by simpa [Instr.wellFormed] using he,
        by simp [Instr.payload, highByte_be16, lowByte_be16], rfl, rfl⟩
  · cases hd
    match p, hp with
    | [p0, p1], _ =>
      exact ⟨.bat (be16 p0 p1), rfl, by simpa [Instr.wellFormed] using he,
        by simp [Instr.payload, highByte_be16, lowByte_be16], rfl, rfl⟩
  · obtain ⟨hd, hs⟩ := hd
    dsimp at hd hs hp
    subst hd
    subst hs
    match p, hp with
    | [b], _ =>
      refine ⟨.extd b, rfl, ?_, rfl, Layout.extdTag_of_mem h he rfl, rfl⟩
      simp only [Instr.wellFormed, List.any_eq_true]
      exact ⟨_, he, rfl⟩

end Sys2Proof
end

