-- ==== Sys2Proof/Laws/State.lean ====
section
/-! SUPPORT. One lemma per field per update of the state, so that no proof unfolds a record update. -/

namespace Sys2Proof.Machine

variable (s : State)

@[simp] theorem State.advance_mem (n : Nat) : (s.advance n).mem = s.mem := rfl
@[simp] theorem State.advance_len (n : Nat) : (s.advance n).len = s.len := rfl
@[simp] theorem State.advance_cur (n : Nat) : (s.advance n).cur = s.cur + n + 1 := rfl
@[simp] theorem State.advance_record (n : Nat) : (s.advance n).record = s.record := rfl
@[simp] theorem State.advance_status (n : Nat) : (s.advance n).status = s.status := rfl
@[simp] theorem State.advance_err (n : Nat) : (s.advance n).err = s.err := rfl
@[simp] theorem State.advance_layout (n : Nat) : (s.advance n).layout = s.layout := rfl
@[simp] theorem State.advance_draws (n : Nat) : (s.advance n).draws = s.draws := rfl

@[simp] theorem State.skip_mem (n : Nat) : (s.skip n).mem = s.mem := rfl
@[simp] theorem State.skip_len (n : Nat) : (s.skip n).len = s.len := rfl
@[simp] theorem State.skip_cur (n : Nat) : (s.skip n).cur = s.cur + n + 1 := rfl
@[simp] theorem State.skip_record (n : Nat) : (s.skip n).record = s.record := rfl
@[simp] theorem State.skip_status (n : Nat) : (s.skip n).status = s.status := rfl
@[simp] theorem State.skip_err (n : Nat) : (s.skip n).err = s.err := rfl
@[simp] theorem State.skip_layout (n : Nat) : (s.skip n).layout = s.layout := rfl
@[simp] theorem State.skip_draws (n : Nat) : (s.skip n).draws = s.draws := rfl

@[simp] theorem State.finish_mem : (s.finish).mem = s.mem := rfl
@[simp] theorem State.finish_len : (s.finish).len = s.len := rfl
@[simp] theorem State.finish_cur : (s.finish).cur = s.cur := rfl
@[simp] theorem State.finish_record : (s.finish).record = s.record := rfl
@[simp] theorem State.finish_status : (s.finish).status = .doneOk := rfl
@[simp] theorem State.finish_err : (s.finish).err = s.err := rfl
@[simp] theorem State.finish_layout : (s.finish).layout = s.layout := rfl
@[simp] theorem State.finish_draws : (s.finish).draws = s.draws := rfl

@[simp] theorem State.raise_mem (k : ErrKind) (i : Nat) (b : Byte) (z : Option Nat) : (s.raise k i b z).mem = s.mem := rfl
@[simp] theorem State.raise_len (k : ErrKind) (i : Nat) (b : Byte) (z : Option Nat) : (s.raise k i b z).len = s.len := rfl
@[simp] theorem State.raise_cur (k : ErrKind) (i : Nat) (b : Byte) (z : Option Nat) : (s.raise k i b z).cur = s.cur := rfl
@[simp] theorem State.raise_record (k : ErrKind) (i : Nat) (b : Byte) (z : Option Nat) : (s.raise k i b z).record = .empty := rfl
@[simp] theorem State.raise_status (k : ErrKind) (i : Nat) (b : Byte) (z : Option Nat) : (s.raise k i b z).status = .doneErr := rfl
@[simp] theorem State.raise_err (k : ErrKind) (i : Nat) (b : Byte) (z : Option Nat) : (s.raise k i b z).err = ⟨k.code, i, b, z.getD (Config.freeErrSize s.draws)⟩ := rfl
@[simp] theorem State.raise_layout (k : ErrKind) (i : Nat) (b : Byte) (z : Option Nat) : (s.raise k i b z).layout = s.layout := rfl
@[simp] theorem State.raise_draws (k : ErrKind) (i : Nat) (b : Byte) (z : Option Nat) : (s.raise k i b z).draws = s.draws + 1 := rfl

@[simp] theorem State.setTemperature_mem (t : Int) : (s.setTemperature t).mem = s.mem := rfl
@[simp] theorem State.setTemperature_len (t : Int) : (s.setTemperature t).len = s.len := rfl
@[simp] theorem State.setTemperature_cur (t : Int) : (s.setTemperature t).cur = s.cur := rfl
@[simp] theorem State.setTemperature_record (t : Int) : (s.setTemperature t).record = { s.record with temperature := some (BitVec.ofInt 16 t) } := rfl
@[simp] theorem State.setTemperature_status (t : Int) : (s.setTemperature t).status = s.status := rfl
@[simp] theorem State.setTemperature_err (t : Int) : (s.setTemperature t).err = s.err := rfl
@[simp] theorem State.setTemperature_layout (t : Int) : (s.setTemperature t).layout = s.layout := rfl
@[simp] theorem State.setTemperature_draws (t : Int) : (s.setTemperature t).draws = s.draws := rfl

@[simp] theorem State.setCo2_mem (v : Half) : (s.setCo2 v).mem = s.mem := rfl
@[simp] theorem State.setCo2_len (v : Half) : (s.setCo2 v).len = s.len := rfl
@[simp] theorem State.setCo2_cur (v : Half) : (s.setCo2 v).cur = s.cur := rfl
@[simp] theorem State.setCo2_record (v : Half) : (s.setCo2 v).record = { s.record with co2 := some v } := rfl
@[simp] theorem State.setCo2_status (v : Half) : (s.setCo2 v).status = s.status := rfl
@[simp] theorem State.setCo2_err (v : Half) : (s.setCo2 v).err = s.err := rfl
@[simp] theorem State.setCo2_layout (v : Half) : (s.setCo2 v).layout = s.layout := rfl
@[simp] theorem State.setCo2_draws (v : Half) : (s.setCo2 v).draws = s.draws := rfl

@[simp] theorem State.setBattery_mem (v : Half) : (s.setBattery v).mem = s.mem := rfl
@[simp] theorem State.setBattery_len (v : Half) : (s.setBattery v).len = s.len := rfl
@[simp] theorem State.setBattery_cur (v : Half) : (s.setBattery v).cur = s.cur := rfl
@[simp] theorem State.setBattery_record (v : Half) : (s.setBattery v).record = { s.record with batteryMv := some v } := rfl
@[simp] theorem State.setBattery_status (v : Half) : (s.setBattery v).status = s.status := rfl
@[simp] theorem State.setBattery_err (v : Half) : (s.setBattery v).err = s.err := rfl
@[simp] theorem State.setBattery_layout (v : Half) : (s.setBattery v).layout = s.layout := rfl
@[simp] theorem State.setBattery_draws (v : Half) : (s.setBattery v).draws = s.draws := rfl

@[simp] theorem State.setOccupancy_mem (o : Occupancy) : (s.setOccupancy o).mem = s.mem := rfl
@[simp] theorem State.setOccupancy_len (o : Occupancy) : (s.setOccupancy o).len = s.len := rfl
@[simp] theorem State.setOccupancy_cur (o : Occupancy) : (s.setOccupancy o).cur = s.cur := rfl
@[simp] theorem State.setOccupancy_record (o : Occupancy) : (s.setOccupancy o).record = { s.record with occupancy := some o.code } := rfl
@[simp] theorem State.setOccupancy_status (o : Occupancy) : (s.setOccupancy o).status = s.status := rfl
@[simp] theorem State.setOccupancy_err (o : Occupancy) : (s.setOccupancy o).err = s.err := rfl
@[simp] theorem State.setOccupancy_layout (o : Occupancy) : (s.setOccupancy o).layout = s.layout := rfl
@[simp] theorem State.setOccupancy_draws (o : Occupancy) : (s.setOccupancy o).draws = s.draws := rfl

@[simp] theorem State.setContact_mem (d : Bool) : (s.setContact d).mem = s.mem := rfl
@[simp] theorem State.setContact_len (d : Bool) : (s.setContact d).len = s.len := rfl
@[simp] theorem State.setContact_cur (d : Bool) : (s.setContact d).cur = s.cur := rfl
@[simp] theorem State.setContact_record (d : Bool) : (s.setContact d).record = { s.record with externalDigital := some d } := rfl
@[simp] theorem State.setContact_status (d : Bool) : (s.setContact d).status = s.status := rfl
@[simp] theorem State.setContact_err (d : Bool) : (s.setContact d).err = s.err := rfl
@[simp] theorem State.setContact_layout (d : Bool) : (s.setContact d).layout = s.layout := rfl
@[simp] theorem State.setContact_draws (d : Bool) : (s.setContact d).draws = s.draws := rfl

@[simp] theorem State.latch_mem (bytes : List Byte) : (s.latch bytes).mem = .ofBytes bytes := rfl
@[simp] theorem State.latch_len (bytes : List Byte) : (s.latch bytes).len = bytes.length := rfl
@[simp] theorem State.latch_cur (bytes : List Byte) : (s.latch bytes).cur = 0 := rfl
@[simp] theorem State.latch_record (bytes : List Byte) : (s.latch bytes).record = .empty := rfl
@[simp] theorem State.latch_status (bytes : List Byte) : (s.latch bytes).status = .busy := rfl
@[simp] theorem State.latch_err (bytes : List Byte) : (s.latch bytes).err = ⟨Config.freeErrKind s.draws, Config.freeErrIndex s.draws, Config.freeErrByte s.draws,
      Config.freeErrSize s.draws⟩ := rfl
@[simp] theorem State.latch_layout (bytes : List Byte) : (s.latch bytes).layout = s.layout := rfl
@[simp] theorem State.latch_draws (bytes : List Byte) : (s.latch bytes).draws = s.draws + 1 := rfl

@[simp] theorem State.powerOnReset_mem : (s.powerOnReset).mem = State.reset.mem := rfl
@[simp] theorem State.powerOnReset_len : (s.powerOnReset).len = State.reset.len := rfl
@[simp] theorem State.powerOnReset_cur : (s.powerOnReset).cur = State.reset.cur := rfl
@[simp] theorem State.powerOnReset_record : (s.powerOnReset).record = State.reset.record := rfl
@[simp] theorem State.powerOnReset_status : (s.powerOnReset).status = State.reset.status := rfl
@[simp] theorem State.powerOnReset_err : (s.powerOnReset).err = State.reset.err := rfl
@[simp] theorem State.powerOnReset_layout : (s.powerOnReset).layout = s.layout := rfl
@[simp] theorem State.powerOnReset_draws : (s.powerOnReset).draws = s.draws := rfl

end Sys2Proof.Machine
end

