-- ==== Sys2Proof/Laws/Memory.lean ====
section
/-! SUPPORT. The input buffer: what reading a request's buffer answers, the canonical form, and spans. -/

namespace Sys2Proof.Machine

theorem Memory.read_ofBytesFrom (bytes : List Byte) (b a : Nat) :
    (Memory.ofBytesFrom b bytes).read a = if b ≤ a then bytes[a - b]? else none := by
  induction bytes generalizing b with
  | nil => simp [Memory.ofBytesFrom, Memory.read]
  | cons x xs ih =>
    simp only [Memory.ofBytesFrom, Memory.read, ih]
    rcases Nat.lt_trichotomy b a with h | h | h
    · rw [if_neg (by omega), if_pos (by omega), if_pos (by omega)]
      obtain ⟨k, rfl⟩ : ∃ k, a = b + 1 + k := ⟨a - (b + 1), by omega⟩
      rw [show b + 1 + k - (b + 1) = k by omega, show b + 1 + k - b = k + 1 by omega]
      simp
    · subst h; simp
    · rw [if_neg (by omega), if_neg (by omega), if_neg (by omega)]

/-- Reading a request's buffer reads its bytes. -/
@[simp] theorem Memory.read_ofBytes (bytes : List Byte) (a : Nat) :
    (Memory.ofBytes bytes).read a = bytes[a]? := by
  simp [Memory.ofBytes, Memory.read_ofBytesFrom]

theorem Memory.ofBytesFrom_indices (bytes : List Byte) (b : Nat) :
    (Memory.ofBytesFrom b bytes).map Prod.fst = List.range' b bytes.length := by
  induction bytes generalizing b with
  | nil => rfl
  | cons x xs ih => simp [Memory.ofBytesFrom, ih, List.range'_succ]

theorem Memory.ofBytes_indices (bytes : List Byte) :
    (Memory.ofBytes bytes).map Prod.fst = List.range bytes.length := by
  rw [Memory.ofBytes, Memory.ofBytesFrom_indices, List.range_eq_range']

/-- The request's buffer has the canonical form; it is the only operation that makes a buffer. -/
theorem Memory.ofBytes_wf (bytes : List Byte) : (Memory.ofBytes bytes).wf = true := by
  simp [Memory.wf, Memory.ofBytes_indices, List.pairwise_lt_range]

theorem State.reset_mem_wf : State.reset.mem.wf = true := rfl

/-- A filled buffer has the canonical form. -/
theorem State.bufferFilled.wf {s : State} (h : s.bufferFilled) : s.mem.wf = true := by
  rw [State.bufferFilled] at h
  simp [Memory.wf, h, List.pairwise_lt_range]

theorem Memory.read_isSome_iff (m : Memory) (a : Nat) :
    (m.read a).isSome = true ↔ a ∈ m.map Prod.fst := by
  induction m with
  | nil => simp [Memory.read]
  | cons c m ih =>
    by_cases h : c.1 = a
    · simp [Memory.read, h]
    · have h' : ¬ a = c.1 := fun e => h e.symm
      simp only [Memory.read, h, if_false, ih, List.map_cons, List.mem_cons, h', false_or]

theorem State.memRead_lt {s : State} {a : Nat} {b : Byte} (h : s.memRead a = some b) : a < s.len := by
  by_contra hn
  simp [State.memRead, hn] at h

/-- In a filled buffer every index below `N` has a byte. -/
theorem State.bufferFilled.memRead {s : State} (h : s.bufferFilled) {a : Nat} (ha : a < s.len) :
    ∃ b, s.memRead a = some b := by
  have hm : a ∈ s.mem.map Prod.fst := by rw [h]; simpa using ha
  have hr := (Memory.read_isSome_iff s.mem a).2 hm
  obtain ⟨b, hb⟩ := Option.isSome_iff_exists.1 hr
  exact ⟨b, by simp [State.memRead, ha, hb]⟩

@[simp] theorem State.memRead_latch (s : State) (bytes : List Byte) (a : Nat) :
    (s.latch bytes).memRead a = bytes[a]? := by
  by_cases h : a < bytes.length
  · simp [State.memRead, h]
  · simp [State.memRead, h]

theorem State.latch_bufferFilled (s : State) (bytes : List Byte) : (s.latch bytes).bufferFilled := by
  simp [State.bufferFilled, Memory.ofBytes_indices]

/-- Reads depend on the buffer and its length only. -/
theorem State.memRead_congr {s t : State} (hm : t.mem = s.mem) (hl : t.len = s.len) (a : Nat) :
    t.memRead a = s.memRead a := by
  simp [State.memRead, hm, hl]

theorem State.readSpan_length {s : State} {a n : Nat} {bytes : List Byte}
    (h : s.readSpan a n = some bytes) : bytes.length = n := by
  induction n generalizing a bytes with
  | zero => simp [State.readSpan] at h; simp [← h]
  | succ n ih =>
    simp only [State.readSpan] at h
    split at h
    · cases h
    · split at h
      · cases h
      · rename_i hb
        cases h
        simp [ih hb]

/-- What a span holds, byte by byte. -/
theorem State.readSpan_eq_some_iff (s : State) (a n : Nat) (bytes : List Byte) :
    s.readSpan a n = some bytes ↔
      bytes.length = n ∧ ∀ k < n, s.memRead (a + k) = bytes[k]? := by
  induction n generalizing a bytes with
  | zero =>
    simp only [State.readSpan, Option.some.injEq, Nat.not_lt_zero, false_implies, implies_true,
      and_true]
    exact ⟨fun h => by simp [← h], fun h => (List.length_eq_zero_iff.1 h).symm⟩
  | succ n ih =>
    constructor
    · intro h
      refine ⟨State.readSpan_length h, ?_⟩
      simp only [State.readSpan] at h
      split at h
      · cases h
      · rename_i b hb
        split at h
        · cases h
        · rename_i bs hbs
          cases h
          intro k hk
          cases k with
          | zero => simpa using hb
          | succ k =>
            have := ((ih (a + 1) bs).1 hbs).2 k (by omega)
            simpa [Nat.add_assoc, Nat.add_comm 1 k] using this
    · rintro ⟨hl, h⟩
      cases bytes with
      | nil => simp at hl
      | cons b bs =>
        have h0 : s.memRead a = some b := by simpa using h 0 (by omega)
        have ht : s.readSpan (a + 1) n = some bs := by
          refine (ih (a + 1) bs).2 ⟨by simpa using hl, fun k hk => ?_⟩
          have := h (k + 1) (by omega)
          simpa [Nat.add_assoc, Nat.add_comm 1 k] using this
        simp [State.readSpan, h0, ht]

/-- In a filled buffer every span below `N` can be read. -/
theorem State.bufferFilled.readSpan {s : State} (h : s.bufferFilled) {a n : Nat}
    (hn : a + n ≤ s.len) : ∃ bytes, s.readSpan a n = some bytes := by
  induction n generalizing a with
  | zero => exact ⟨[], rfl⟩
  | succ n ih =>
    obtain ⟨b, hb⟩ := h.memRead (a := a) (by omega)
    obtain ⟨bs, hbs⟩ := ih (a := a + 1) (by omega)
    exact ⟨b :: bs, by simp [State.readSpan, hb, hbs]⟩

/-- A span splits at any place. -/
theorem State.readSpan_append {s : State} {a m n : Nat} {xs : List Byte}
    (h : s.readSpan a (m + n) = some xs) :
    s.readSpan a m = some (xs.take m) ∧ s.readSpan (a + m) n = some (xs.drop m) := by
  rw [State.readSpan_eq_some_iff] at h
  obtain ⟨hl, hk⟩ := h
  constructor
  · refine (State.readSpan_eq_some_iff _ _ _ _).2 ⟨by simp [hl], fun k hkm => ?_⟩
    rw [hk k (by omega), List.getElem?_take_of_lt hkm]
  · refine (State.readSpan_eq_some_iff _ _ _ _).2 ⟨by simp [hl], fun k hkn => ?_⟩
    rw [List.getElem?_drop, ← hk (m + k) (by omega), Nat.add_assoc]

end Sys2Proof.Machine
end

