-- ==== Sys2Proof/Laws/Step.lean ====
section
/-!
SUPPORT. What a record's meaning and a step can answer, said once: the proofs about runs cite these
instead of unfolding the dispatch.
-/

namespace Sys2Proof.Machine

/-- Everything a record's meaning can answer: it always answers a next state. -/
theorem exec_cases (i : Instr) (s : State) :
    (∃ v, i = .temp v ∧ exec i s = .next ((s.setTemperature (sext16 v)).advance 2)) ∨
    (∃ v, i = .co2 v ∧ exec i s = .next ((s.setCo2 v).advance 2)) ∨
    (∃ v, i = .bat v ∧ exec i s = .next ((s.setBattery v).advance 2)) ∨
    (∃ b o, i = .occ b ∧ occupancyOf b = some o ∧ exec i s = .next ((s.setOccupancy o).advance 1)) ∨
    (∃ b d, i = .extd b ∧ contactOf b = some d ∧ exec i s = .next ((s.setContact d).advance 1)) ∨
    (∃ b, (i = .occ b ∧ occupancyOf b = none ∨ i = .extd b ∧ contactOf b = none) ∧
      exec i s = .next (s.raise .invalidEnumValue (s.cur + 1) b none)) ∨
    (i.isNoop = true ∧ exec i s = .next (s.advance i.size)) := by
  cases i
  case temp v => exact .inl ⟨v, rfl, rfl⟩
  case co2 v => exact .inr (.inl ⟨v, rfl, rfl⟩)
  case bat v => exact .inr (.inr (.inl ⟨v, rfl, rfl⟩))
  case occ b =>
    cases ho : occupancyOf b with
    | some o => exact .inr (.inr (.inr (.inl ⟨b, o, rfl, ho, by simp [exec, execOcc, ho]⟩)))
    | none =>
      exact .inr (.inr (.inr (.inr (.inr (.inl ⟨b, .inl ⟨rfl, ho⟩, by simp [exec, execOcc, ho]⟩)))))
  case extd b =>
    cases hd : contactOf b with
    | some d =>
      exact .inr (.inr (.inr (.inr (.inl ⟨b, d, rfl, hd, by simp [exec, execExtd, hd]⟩))))
    | none =>
      exact .inr (.inr (.inr (.inr (.inr (.inl ⟨b, .inr ⟨rfl, hd⟩, by simp [exec, execExtd, hd]⟩)))))
  all_goals exact .inr (.inr (.inr (.inr (.inr (.inr ⟨rfl, rfl⟩)))))

/-- A record's meaning answers a next state. -/
theorem exec_next (i : Instr) (s : State) : ∃ t, exec i s = .next t := by
  rcases exec_cases i s with ⟨_, _, h⟩ | ⟨_, _, h⟩ | ⟨_, _, h⟩ | ⟨_, _, _, _, h⟩ | ⟨_, _, _, _, h⟩ |
    ⟨_, _, h⟩ | ⟨_, h⟩ <;> exact ⟨_, h⟩

/-- A no-op record is consumed whatever its payload. -/
theorem exec_noop {i : Instr} {s : State} (h : i.isNoop = true) : exec i s = .next (s.advance i.size) := by
  rcases exec_cases i s with ⟨_, rfl, _⟩ | ⟨_, rfl, _⟩ | ⟨_, rfl, _⟩ | ⟨_, _, rfl, _⟩ | ⟨_, _, rfl, _⟩ |
    ⟨_, ⟨rfl, _⟩ | ⟨rfl, _⟩, _⟩ | ⟨_, h'⟩
  all_goals first
    | exact h'
    | simp [Instr.isNoop] at h

/-- A record's meaning either keeps the status and moves past the record, or raises
`InvalidEnumValue`. -/
theorem exec_accepts_or_raises {i : Instr} {s t : State} (h : exec i s = .next t) :
    (t.status = s.status ∧ t.err = s.err ∧ t.draws = s.draws ∧ t.cur = s.cur + i.size + 1) ∨
      ∃ b, (i = .occ b ∧ occupancyOf b = none ∨ i = .extd b ∧ contactOf b = none) ∧
        t = s.raise .invalidEnumValue (s.cur + 1) b none := by
  rcases exec_cases i s with ⟨v, rfl, h'⟩ | ⟨v, rfl, h'⟩ | ⟨v, rfl, h'⟩ | ⟨b, o, rfl, _, h'⟩ |
    ⟨b, o, rfl, _, h'⟩ | ⟨b, hi, h'⟩ | ⟨_, h'⟩ <;> rw [h'] at h <;> cases h
  all_goals first
    | exact .inl ⟨rfl, rfl, rfl, rfl⟩
    | exact .inr ⟨b, hi, rfl⟩

theorem step_not_busy {s : State} (h : s.status ≠ .busy) : step s = .next s := by
  cases hs : s.status <;> simp_all [step, State.front]

theorem step_exit {s : State} (h : s.status = .busy) (hc : s.len ≤ s.cur) :
    step s = .next s.finish := by
  simp [step, State.front, h, hc]

theorem step_unrecognized {s : State} (h : s.status = .busy) {b : Byte} (hb : s.memRead s.cur = some b)
    (hl : s.layout.lookup b = none) : step s = .next (s.raiseUnrecognized b) := by
  have hc := State.memRead_lt hb
  simp [step, State.front, State.frontTag, h, hb, hl, Nat.not_le.2 hc]

theorem step_truncated {s : State} (h : s.status = .busy) {b : Byte} (hb : s.memRead s.cur = some b)
    {e : Entry} (hl : s.layout.lookup b = some e) (hN : s.len ≤ s.cur + e.size) :
    step s = .next (s.raiseTruncated b e.size) := by
  have hc := State.memRead_lt hb
  simp [step, State.front, State.frontTag, h, hb, hl, Nat.not_le.2 hc, Nat.not_lt.2 hN]

theorem State.fetchPayload_noop (s : State) {e : Entry} (h : e.dec = .noop) :
    s.fetchPayload e = some (List.replicate e.size 0) := by
  simp [State.fetchPayload, h]

theorem State.fetchPayload_reads (s : State) {e : Entry} (h : e.dec ≠ .noop) :
    s.fetchPayload e = s.readSpan (s.cur + 1) e.size := by
  unfold State.fetchPayload
  split
  · exact absurd ‹_› h
  all_goals rfl

/-- A step on a record that fits is what the record's entry and fetched operand spell. -/
theorem step_record {s : State} (h : s.status = .busy) {b : Byte} (hb : s.memRead s.cur = some b)
    {e : Entry} (hl : s.layout.lookup b = some e) (hN : s.cur + e.size < s.len) :
    step s = match s.fetchPayload e with
      | none => .fault (.bufferIndex (s.cur + 1))
      | some p => match e.spell p with
        | .row i => exec i s
        | .otherNoop => .next (s.advance e.size)
        | .misfit => .refused (.inadmissibleEntry b) := by
  have hc := State.memRead_lt hb
  simp only [step, State.front, State.frontTag, State.frontRecord, h, hb, hl, ge_iff_le,
    Nat.not_le.2 hc, gt_iff_lt, hN, if_true, if_false]
  cases s.fetchPayload e with
  | none => rfl
  | some p => cases hsp : e.spell p <;> simp [hsp]

/-- A step on a no-op record that fits moves past it, whatever the buffer holds after the tag. -/
theorem step_noop {s : State} (h : s.status = .busy) {b : Byte} (hb : s.memRead s.cur = some b)
    {e : Entry} (hl : s.layout.lookup b = some e) (hN : s.cur + e.size < s.len) (hd : e.dec = .noop) :
    step s = .next (s.advance e.size) := by
  rw [step_record h hb hl hN, State.fetchPayload_noop s hd]
  rcases Entry.spell_noop hd (List.replicate e.size 0) with hsp | ⟨i, hsp, hi, hp⟩
  · simp only [hsp]
  · simp only [hsp, exec_noop hi, Instr.size, hp, List.length_replicate]

/-- A step on a record that fits and whose payload bytes the buffer holds is what its entry and those
bytes spell. -/
theorem step_fits {s : State} (h : s.status = .busy) {b : Byte} (hb : s.memRead s.cur = some b)
    {e : Entry} (hl : s.layout.lookup b = some e) (hN : s.cur + e.size < s.len) {p : List Byte}
    (hp : s.readSpan (s.cur + 1) e.size = some p) :
    step s = match e.spell p with
      | .row i => exec i s
      | .otherNoop => .next (s.advance e.size)
      | .misfit => .refused (.inadmissibleEntry b) := by
  by_cases hd : e.dec = .noop
  · rw [step_noop h hb hl hN hd]
    rcases Entry.spell_noop hd p with hsp | ⟨i, hsp, hi, hip⟩
    · simp [hsp]
    · simp [hsp, exec_noop hi, Instr.size, hip, State.readSpan_length hp]
  · rw [step_record h hb hl hN, State.fetchPayload_reads s hd, hp]

/-- Everything a step that answers a next state can have done. -/
theorem step_cases {s t : State} (h : step s = .next t) :
    (s.status ≠ .busy ∧ t = s) ∨
    (s.status = .busy ∧ s.len ≤ s.cur ∧ t = s.finish) ∨
    (∃ b, s.status = .busy ∧ s.memRead s.cur = some b ∧ s.layout.lookup b = none ∧
      t = s.raiseUnrecognized b) ∨
    (∃ b e, s.status = .busy ∧ s.memRead s.cur = some b ∧ s.layout.lookup b = some e ∧
      s.len ≤ s.cur + e.size ∧ t = s.raiseTruncated b e.size) ∨
    (∃ b e, s.status = .busy ∧ s.memRead s.cur = some b ∧ s.layout.lookup b = some e ∧
      s.cur + e.size < s.len ∧ e.dec = .noop ∧ t = s.advance e.size) ∨
    (∃ b e p i, s.status = .busy ∧ s.memRead s.cur = some b ∧ s.layout.lookup b = some e ∧
      s.cur + e.size < s.len ∧ e.dec ≠ .noop ∧ s.readSpan (s.cur + 1) e.size = some p ∧
      e.spell p = .row i ∧ exec i s = .next t) := by
  by_cases hs : s.status = .busy
  · right
    by_cases hc : s.len ≤ s.cur
    · rw [step_exit hs hc] at h
      cases h
      exact .inl ⟨hs, hc, rfl⟩
    · right
      cases hb : s.memRead s.cur with
      | none => simp [step, State.front, hs, hb, hc] at h
      | some b =>
        cases hl : s.layout.lookup b with
        | none =>
          rw [step_unrecognized hs hb hl] at h
          cases h
          exact .inl ⟨b, hs, rfl, hl, rfl⟩
        | some e =>
          right
          by_cases hN : s.cur + e.size < s.len
          · right
            by_cases hd : e.dec = .noop
            · rw [step_noop hs hb hl hN hd] at h
              cases h
              exact .inl ⟨b, e, hs, rfl, hl, hN, hd, rfl⟩
            · rw [step_record hs hb hl hN, State.fetchPayload_reads s hd] at h
              cases hp : s.readSpan (s.cur + 1) e.size with
              | none => simp [hp] at h
              | some p =>
                cases hsp : e.spell p with
                | row i => exact .inr ⟨b, e, p, i, hs, rfl, hl, hN, hd, hp, hsp, by simpa [hp, hsp] using h⟩
                | otherNoop => exact absurd (Entry.spell_otherNoop hsp) hd
                | misfit => simp [hp, hsp] at h
          · rw [step_truncated hs hb hl (Nat.le_of_not_lt hN)] at h
            cases h
            exact .inl ⟨b, e, hs, rfl, hl, Nat.le_of_not_lt hN, rfl⟩
  · rw [step_not_busy hs] at h
    cases h
    exact .inl ⟨hs, rfl⟩

end Sys2Proof.Machine
end

