-- ==== Sys2Proof/Laws/Host.lean ====
section
/-!
SUPPORT. What a host's request and its reads answer, and how a run of the core unfolds.
-/

namespace Sys2Proof.Machine

/-- Everything an admitted request can have done. -/
theorem request_cases {s t : State} {bytes : List Byte} (h : s.request bytes = .next t) :
    s.status ≠ .busy ∧ admitsLength bytes.length = true ∧ t = s.latch bytes := by
  unfold State.request at h
  split at h
  · cases h
  all_goals
    rename_i hs
    split at h <;> cases h
    rename_i ha
    exact ⟨by simp [hs], ha, rfl⟩

theorem request_admitted {s : State} {bytes : List Byte} (h : s.status ≠ .busy)
    (ha : admitsLength bytes.length = true) : s.request bytes = .next (s.latch bytes) := by
  unfold State.request
  split
  · exact absurd ‹_› h
  all_goals simp [ha]

/-- The empty buffer is within every `MAX_LEN`. -/
theorem admitsLength_zero : admitsLength 0 = true := by
  unfold admitsLength
  split <;> simp

/-- What the host reads of the record registers, field by field. -/
theorem Record.decoded_ok {r : Record} {d : DecodedRecord} (h : r.decoded = .ok d) :
    d.temperature = r.temperature.map sext16 ∧ d.co2 = r.co2.map BitVec.toNat ∧
      d.batteryMv = r.batteryMv.map BitVec.toNat ∧
      readOccupancyCode r.occupancy = .ok d.occupancy ∧ d.externalDigital = r.externalDigital := by
  unfold Record.decoded at h
  split at h <;> cases h
  rename_i ho
  exact ⟨rfl, rfl, rfl, ho, rfl⟩

theorem core_run_zero (s : State) : Sys2Proof.core.run 0 s = .next s := rfl

/-- A run of one more step is the step and the run from its state. -/
theorem core_run_succ (k : Nat) (s : State) :
    Sys2Proof.core.run (k + 1) s =
      match step s with
      | .next t => Sys2Proof.core.run k t
      | .fault r => .fault r
      | .refused r => .refused r := by
  refine (Host.Core.run.eq_2 Sys2Proof.core s k).trans ?_
  have hs : Sys2Proof.core.step s = step s := rfl
  rw [hs]
  cases step s <;> rfl

/-- Outside `BUSY` a run stays where it is. -/
theorem core_run_hold {s : State} (h : s.status ≠ .busy) (k : Nat) :
    Sys2Proof.core.run k s = .next s := by
  induction k with
  | zero => rfl
  | succ k ih => rw [core_run_succ, step_not_busy h]; exact ih

end Sys2Proof.Machine
end

