-- ==== Sys2Proof/Laws/Instances.lean ====
section
/-!
SUPPORT. What a move of one instance, and an interleaving of moves, can have done.
-/

namespace Sys2Proof.Machine

/-- Everything a move of instance `k` can have done: nothing where there is no such instance, and its own
state's move otherwise. -/
theorem moveAt_cases {ss ss' : List State} {k : Nat} {m : Move} (h : moveAt ss k m = .next ss') :
    (ss[k]? = none ∧ ss' = ss) ∨
      ∃ s t, ss[k]? = some s ∧ m.apply s = .next t ∧ ss' = ss.set k t := by
  unfold moveAt at h
  split at h
  · rename_i hn; cases h; exact .inl ⟨hn, rfl⟩
  · rename_i s hs
    split at h <;> cases h
    rename_i t ht
    exact .inr ⟨s, t, hs, ht, rfl⟩

theorem moveAt_next {ss : List State} {k : Nat} {m : Move} {s t : State} (hs : ss[k]? = some s)
    (hm : m.apply s = .next t) : moveAt ss k m = .next (ss.set k t) := by
  simp [moveAt, hs, hm]

theorem moveAt_absent {ss : List State} {k : Nat} {m : Move} (h : ss[k]? = none) :
    moveAt ss k m = .next ss := by
  simp only [moveAt, h]

/-- A move leaves every other instance as it was. -/
theorem moveAt_frame {ss ss' : List State} {k l : Nat} {m : Move} (h : moveAt ss k m = .next ss')
    (hl : l ≠ k) : ss'[l]? = ss[l]? := by
  rcases moveAt_cases h with ⟨-, rfl⟩ | ⟨s, t, -, -, rfl⟩
  · rfl
  · exact List.getElem?_set_ne (Ne.symm hl)

theorem moveAt_length {ss ss' : List State} {k : Nat} {m : Move} (h : moveAt ss k m = .next ss') :
    ss'.length = ss.length := by
  rcases moveAt_cases h with ⟨-, rfl⟩ | ⟨s, t, -, -, rfl⟩
  · rfl
  · exact List.length_set

@[simp] theorem runMoves_nil (ss : List State) : runMoves ss [] = .next ss := rfl

theorem runMoves_cons {ss ss' : List State} {k : Nat} {m : Move} (moves : List (Nat × Move))
    (h : moveAt ss k m = .next ss') : runMoves ss ((k, m) :: moves) = runMoves ss' moves := by
  simp [runMoves, h]

@[simp] theorem movesOf_nil (k : Nat) : movesOf k [] = [] := rfl

@[simp] theorem movesOf_cons_self (k : Nat) (m : Move) (moves : List (Nat × Move)) :
    movesOf k ((k, m) :: moves) = m :: movesOf k moves := by
  simp [movesOf]

theorem movesOf_cons_ne {j k : Nat} (h : k ≠ j) (m : Move) (moves : List (Nat × Move)) :
    movesOf j ((k, m) :: moves) = movesOf j moves := by
  simp [movesOf, h]

end Sys2Proof.Machine
end

