-- ==== Sys2Proof/Laws/Notation.lean ====
section
/-!
SUPPORT. What spelling a line by name keeps (notes/assumptions/21.md): the line's bytes, its range and
its being a record; and the lines it leaves alone.
-/

namespace Sys2Proof.Machine

/-- A byte that selects a state is that state's byte. -/
theorem Occupancy.byte_of_occupancyOf {b : Byte} {o : Occupancy} (h : occupancyOf b = some o) :
    o.byte = b := by
  revert h
  revert b o
  decide

/-- A byte that selects a contact state is that state's byte. -/
theorem contact_byte_of_contactOf {b : Byte} {d : Bool} (h : contactOf b = some d) :
    (if d then 0x01 else 0x00) = b := by
  revert h
  revert b d
  decide

/-- The named form of a line is in named form. -/
@[simp] theorem Line.named_byName (line : Line) : line.byName.named = true := by
  cases line <;> simp only [Line.byName] <;> first | rfl | (split <;> simp_all [Line.named])

/-- Exactly the lines in named form are their own named form. -/
theorem Line.byName_eq_self_iff (line : Line) : line.byName = line ↔ line.named = true := by
  refine ⟨fun h => h ▸ line.named_byName, fun h => ?_⟩
  cases line with
  | occRaw b => simp_all [Line.byName, Line.named]
  | extdRaw b => simp_all [Line.byName, Line.named]
  | temp _ | co2 _ | bat _ | occ _ | extd _ | light _ | nop _ _ | raw _ => rfl

/-- Both spellings of a payload byte assemble to the same bytes (30_encoding.md R67). -/
@[simp] theorem Line.bytes_byName (L : Layout) (line : Line) : line.byName.bytes L = line.bytes L := by
  cases line with
  | occRaw b =>
    simp only [Line.byName]
    split
    · next h => simp [Line.bytes, Occupancy.byte_of_occupancyOf h]
    · rfl
  | extdRaw b =>
    simp only [Line.byName]
    split
    · next h => simpa [Line.bytes] using contact_byte_of_contactOf h
    · rfl
  | temp _ | co2 _ | bat _ | occ _ | extd _ | light _ | nop _ _ | raw _ => rfl

/-- Both spellings of a payload byte are in range (30_encoding.md R67). -/
@[simp] theorem Line.inRange_byName (L : Layout) (line : Line) :
    line.byName.inRange L = line.inRange L := by
  cases line <;> simp only [Line.byName] <;> first | rfl | (split <;> rfl)

@[simp] theorem Line.isRecord_byName (line : Line) : line.byName.isRecord = line.isRecord := by
  cases line <;> simp only [Line.byName] <;> first | rfl | (split <;> rfl)

end Sys2Proof.Machine
end

