-- ==== Sys2Proof/Laws/PerInstr.lean ====
section
/-!
SUPPORT. Per-instruction families. HasEntry: a well-formed record of an admissible table has the entry
that its tag, its size and its payload spell.
-/

namespace Sys2Proof.Laws.HasEntry

open Sys2Proof Sys2Proof.Machine

/-- The table holds an entry with the record's tag and size, which spells the record from its payload. -/
def Statement (i : Instr) : Prop :=
  ∀ L : Layout, L.admissible = true → i.wellFormed L = true →
    ∃ e ∈ L, e.id = i.tag L ∧ e.size = i.size ∧ e.spell i.payload = .row i

theorem temp (v : Half) : Statement (.temp v) := fun L _ hw =>
  ⟨_, by simpa [Instr.wellFormed] using hw, rfl, rfl, by simp [Entry.spell, Instr.payload, be16_high_low]⟩

theorem nop02 (p : List Byte) : Statement (.nop02 p) := fun L _ hw =>
  ⟨_, by simpa [Instr.wellFormed] using hw, rfl, rfl, rfl⟩

theorem nop03 (p : List Byte) : Statement (.nop03 p) := fun L _ hw =>
  ⟨_, by simpa [Instr.wellFormed] using hw, rfl, rfl, rfl⟩

theorem light (p : List Byte) : Statement (.light p) := fun L _ hw =>
  ⟨_, by simpa [Instr.wellFormed] using hw, rfl, rfl, rfl⟩

theorem occ (b : Byte) : Statement (.occ b) := fun L _ hw =>
  ⟨_, by simpa [Instr.wellFormed] using hw, rfl, rfl, rfl⟩

theorem co2 (v : Half) : Statement (.co2 v) := fun L _ hw =>
  ⟨_, by simpa [Instr.wellFormed] using hw, rfl, rfl, by simp [Entry.spell, Instr.payload, be16_high_low]⟩

theorem bat (v : Half) : Statement (.bat v) := fun L _ hw =>
  ⟨_, by simpa [Instr.wellFormed] using hw, rfl, rfl, by simp [Entry.spell, Instr.payload, be16_high_low]⟩

theorem nop08 (p : List Byte) : Statement (.nop08 p) := fun L _ hw =>
  ⟨_, by simpa [Instr.wellFormed] using hw, rfl, rfl, rfl⟩

theorem nop09 (p : List Byte) : Statement (.nop09 p) := fun L _ hw =>
  ⟨_, by simpa [Instr.wellFormed] using hw, rfl, rfl, rfl⟩

theorem nop0A (p : List Byte) : Statement (.nop0A p) := fun L _ hw =>
  ⟨_, by simpa [Instr.wellFormed] using hw, rfl, rfl, rfl⟩

theorem nop0B (p : List Byte) : Statement (.nop0B p) := fun L _ hw =>
  ⟨_, by simpa [Instr.wellFormed] using hw, rfl, rfl, rfl⟩

theorem nop0C (p : List Byte) : Statement (.nop0C p) := fun L _ hw =>
  ⟨_, by simpa [Instr.wellFormed] using hw, rfl, rfl, rfl⟩

theorem extd (b : Byte) : Statement (.extd b) := fun L ha hw => by
  simp only [Instr.wellFormed, List.any_eq_true, Bool.and_eq_true, decide_eq_true_eq] at hw
  obtain ⟨e, he, hd, hs⟩ := hw
  exact ⟨e, he, (Layout.extdTag_of_mem ha he hd).symm, hs, by
    simp [Entry.spell, hd, Instr.payload]⟩

theorem nop0E (p : List Byte) : Statement (.nop0E p) := fun L _ hw =>
  ⟨_, by simpa [Instr.wellFormed] using hw, rfl, rfl, rfl⟩

theorem nop0F (p : List Byte) : Statement (.nop0F p) := fun L _ hw =>
  ⟨_, by simpa [Instr.wellFormed] using hw, rfl, rfl, rfl⟩

theorem nop10 (p : List Byte) : Statement (.nop10 p) := fun L _ hw =>
  ⟨_, by simpa [Instr.wellFormed] using hw, rfl, rfl, rfl⟩

theorem nop11 (p : List Byte) : Statement (.nop11 p) := fun L _ hw =>
  ⟨_, by simpa [Instr.wellFormed] using hw, rfl, rfl, rfl⟩

theorem nop12 (p : List Byte) : Statement (.nop12 p) := fun L _ hw =>
  ⟨_, by simpa [Instr.wellFormed] using hw, rfl, rfl, rfl⟩

theorem nop13 (p : List Byte) : Statement (.nop13 p) := fun L _ hw =>
  ⟨_, by simpa [Instr.wellFormed] using hw, rfl, rfl, rfl⟩

theorem nop14 (p : List Byte) : Statement (.nop14 p) := fun L _ hw =>
  ⟨_, by simpa [Instr.wellFormed] using hw, rfl, rfl, rfl⟩

theorem nop15 (p : List Byte) : Statement (.nop15 p) := fun L _ hw =>
  ⟨_, by simpa [Instr.wellFormed] using hw, rfl, rfl, rfl⟩

theorem nop16 (p : List Byte) : Statement (.nop16 p) := fun L _ hw =>
  ⟨_, by simpa [Instr.wellFormed] using hw, rfl, rfl, rfl⟩

theorem nop17 (p : List Byte) : Statement (.nop17 p) := fun L _ hw =>
  ⟨_, by simpa [Instr.wellFormed] using hw, rfl, rfl, rfl⟩

theorem nop18 (p : List Byte) : Statement (.nop18 p) := fun L _ hw =>
  ⟨_, by simpa [Instr.wellFormed] using hw, rfl, rfl, rfl⟩

theorem nop19 (p : List Byte) : Statement (.nop19 p) := fun L _ hw =>
  ⟨_, by simpa [Instr.wellFormed] using hw, rfl, rfl, rfl⟩

theorem nop1A (p : List Byte) : Statement (.nop1A p) := fun L _ hw =>
  ⟨_, by simpa [Instr.wellFormed] using hw, rfl, rfl, rfl⟩

theorem nop1B (p : List Byte) : Statement (.nop1B p) := fun L _ hw =>
  ⟨_, by simpa [Instr.wellFormed] using hw, rfl, rfl, rfl⟩

theorem nop1C (p : List Byte) : Statement (.nop1C p) := fun L _ hw =>
  ⟨_, by simpa [Instr.wellFormed] using hw, rfl, rfl, rfl⟩

theorem nop3D (p : List Byte) : Statement (.nop3D p) := fun L _ hw =>
  ⟨_, by simpa [Instr.wellFormed] using hw, rfl, rfl, rfl⟩

end Sys2Proof.Laws.HasEntry
end

