-- ==== Sys2Proof/Tests/Slice0.lean ====
section
/-!
SUPPORT. The model's own tests: ill-formed terms refused, words written out from the spec's encodings
decoded, one step at a time on the spec's vectors (95_test_vectors.md), and for every statement with
hypotheses a state that meets them.
-/

namespace Sys2Proof.Machine

/-! ## Helpers -/

/-- A decode of `bytes` in progress at cursor `cur`, with no field set. -/
def busyAt (bytes : List Byte) (cur : Nat) : State :=
  { State.reset with mem := .ofBytes bytes, len := bytes.length, cur := cur, status := .busy }

/-- Whether a result is a next state with property `p`. -/
def nextHas (r : Result) (p : State → Bool) : Bool :=
  match r with
  | .next s => p s
  | .fault _ => false
  | .refused _ => false

/-- Whether a result is the refusal `x`. -/
def isRefused (r : Result) (x : Refusal) : Bool :=
  match r with
  | .refused y => y = x
  | .next _ => false
  | .fault _ => false

/-- The error registers less `size`, after a step. -/
def errIs (s : State) (kind : BitVec 2) (index : Nat) (byte : Byte) : Bool :=
  s.status = .doneErr && s.err.kind = kind && s.err.index = index && s.err.byte = byte

/-- A table whose last no-op entry has an identifier without a row: admissible, not the reference. -/
def layoutOther : Layout := layoutRef.dropLast ++ [⟨0x50, 2, .noop⟩]

/-- A table no spec admits: TEMP with three payload bytes. -/
def layoutMisfit : Layout := [⟨0x01, 3, .temp⟩]

/-- The reference table with `x` in the place of the entry of tag `id`. -/
def withEntry (id : Byte) (x : Entry) : Layout := layoutRef.map (fun e => if e.id = id then x else e)

theorem layoutRef_admissible : layoutRef.admissible = true := by decide

theorem busyAt_inv (bytes : List Byte) (cur : Nat) (h : cur ≤ bytes.length) : (busyAt bytes cur).Inv where
  buffer := Memory.ofBytes_indices bytes
  cursor := h
  success := nofun
  occupancy := nofun
  errKind := nofun
  errByte := nofun
  discarded := nofun
  untouched := nofun
  layout := layoutRef_admissible

/-! ## WellFormed refuses ill-formed terms (30_encoding.md R57) -/

theorem test_layout_other_admissible : layoutOther.admissible = true := by decide
theorem test_layout_needs_29_entries : Layout.admissible layoutRef.dropLast = false := by decide
theorem test_layout_needs_temp :
    (withEntry 0x01 ⟨0x01, 2, .noop⟩).admissible = false := by decide
theorem test_layout_needs_occ :
    (withEntry 0x05 ⟨0x05, 2, .occ⟩).admissible = false := by decide
theorem test_layout_needs_co2 :
    (withEntry 0x06 ⟨0x66, 2, .co2⟩).admissible = false := by decide
theorem test_layout_needs_bat :
    (withEntry 0x07 ⟨0x07, 1, .bat⟩).admissible = false := by decide
theorem test_layout_needs_light :
    (withEntry 0x04 ⟨0x44, 2, .noop⟩).admissible = false := by decide
theorem test_layout_needs_extd :
    (withEntry 0x0D ⟨0x0D, 1, .noop⟩).admissible = false := by decide
theorem test_layout_needs_one_entry_per_decoder :
    (withEntry 0x1A ⟨0x1A, 1, .extd⟩).admissible = false := by decide
theorem test_layout_needs_other_entries_noop :
    (withEntry 0x11 ⟨0x11, 2, .extd⟩).admissible = false := by decide
theorem test_layout_excludes_0x20 :
    (withEntry 0x3D ⟨0x20, 4, .noop⟩).admissible = false := by decide
theorem test_layout_needs_distinct_ids :
    (withEntry 0x3D ⟨0x02, 4, .noop⟩).admissible = false := by decide

/-- A no-op record whose payload is not its entry's size, each row. -/
theorem test_wrong_payload_size_ill_formed :
    [Instr.nop02 (List.replicate 2 0), Instr.nop03 (List.replicate 4 0), Instr.light (List.replicate 3 0), Instr.nop08 (List.replicate 3 0), Instr.nop09 (List.replicate 7 0), Instr.nop0A (List.replicate 3 0), Instr.nop0B (List.replicate 5 0), Instr.nop0C (List.replicate 3 0), Instr.nop0E (List.replicate 3 0), Instr.nop0F (List.replicate 2 0), Instr.nop10 (List.replicate 5 0), Instr.nop11 (List.replicate 2 0), Instr.nop12 (List.replicate 2 0), Instr.nop13 (List.replicate 66 0), Instr.nop14 (List.replicate 5 0), Instr.nop15 (List.replicate 3 0), Instr.nop16 (List.replicate 3 0), Instr.nop17 (List.replicate 5 0), Instr.nop18 (List.replicate 3 0), Instr.nop19 (List.replicate 3 0), Instr.nop1A (List.replicate 2 0), Instr.nop1B (List.replicate 5 0), Instr.nop1C (List.replicate 3 0), Instr.nop3D (List.replicate 5 0)].all
      (fun i => !i.wellFormed layoutRef) = true := by decide

/-- A record of a table without its entry. -/
theorem test_missing_entry_ill_formed :
    [Instr.temp 0, .co2 0, .bat 0, .occ 0, .extd 0].all (fun i => !i.wellFormed layoutMisfit) = true := by
  decide

theorem test_rows_well_formed :
    [Instr.temp 0xFFFF, .co2 0, .bat 0, .occ 0xFF, .extd 0xFF, .nop02 (List.replicate 1 0), .nop03 (List.replicate 3 0), .light (List.replicate 2 0), .nop08 (List.replicate 2 0), .nop09 (List.replicate 6 0), .nop0A (List.replicate 2 0), .nop0B (List.replicate 4 0), .nop0C (List.replicate 2 0), .nop0E (List.replicate 2 0), .nop0F (List.replicate 1 0), .nop10 (List.replicate 4 0), .nop11 (List.replicate 1 0), .nop12 (List.replicate 1 0), .nop13 (List.replicate 65 0), .nop14 (List.replicate 4 0), .nop15 (List.replicate 2 0), .nop16 (List.replicate 2 0), .nop17 (List.replicate 4 0), .nop18 (List.replicate 2 0), .nop19 (List.replicate 2 0), .nop1A (List.replicate 1 0), .nop1B (List.replicate 4 0), .nop1C (List.replicate 2 0), .nop3D (List.replicate 4 0)].all
      (fun i => i.wellFormed layoutRef) = true := by decide

/-! ## Words written out from the spec's encodings (30_encoding.md R59, 41_field_decoders.md R87 to R116) -/

theorem test_decode_temp : decode layoutRef [0x01, 0x80, 0x01] = .record (.temp 0x8001) [] := by decide
theorem test_decode_nop02 : decode layoutRef [0x02, 0x10] = .record (.nop02 [0x10]) [] := by decide
theorem test_decode_nop03 : decode layoutRef [0x03, 0x10, 0x11, 0x12] = .record (.nop03 [0x10, 0x11, 0x12]) [] := by decide
theorem test_decode_light : decode layoutRef [0x04, 0x10, 0x11] = .record (.light [0x10, 0x11]) [] := by decide
theorem test_decode_occ : decode layoutRef [0x05, 0x02] = .record (.occ 0x02) [] := by decide
theorem test_decode_co2 : decode layoutRef [0x06, 0x01, 0x90] = .record (.co2 0x0190) [] := by decide
theorem test_decode_bat : decode layoutRef [0x07, 0x0E, 0x41] = .record (.bat 0x0E41) [] := by decide
theorem test_decode_nop08 : decode layoutRef [0x08, 0x10, 0x11] = .record (.nop08 [0x10, 0x11]) [] := by decide
theorem test_decode_nop09 : decode layoutRef [0x09, 0x10, 0x11, 0x12, 0x13, 0x14, 0x15] = .record (.nop09 [0x10, 0x11, 0x12, 0x13, 0x14, 0x15]) [] := by decide
theorem test_decode_nop0A : decode layoutRef [0x0A, 0x10, 0x11] = .record (.nop0A [0x10, 0x11]) [] := by decide
theorem test_decode_nop0B : decode layoutRef [0x0B, 0x10, 0x11, 0x12, 0x13] = .record (.nop0B [0x10, 0x11, 0x12, 0x13]) [] := by decide
theorem test_decode_nop0C : decode layoutRef [0x0C, 0x10, 0x11] = .record (.nop0C [0x10, 0x11]) [] := by decide
theorem test_decode_extd : decode layoutRef [0x0D, 0x01] = .record (.extd 0x01) [] := by decide
theorem test_decode_nop0E : decode layoutRef [0x0E, 0x10, 0x11] = .record (.nop0E [0x10, 0x11]) [] := by decide
theorem test_decode_nop0F : decode layoutRef [0x0F, 0x10] = .record (.nop0F [0x10]) [] := by decide
theorem test_decode_nop10 : decode layoutRef [0x10, 0x10, 0x11, 0x12, 0x13] = .record (.nop10 [0x10, 0x11, 0x12, 0x13]) [] := by decide
theorem test_decode_nop11 : decode layoutRef [0x11, 0x10] = .record (.nop11 [0x10]) [] := by decide
theorem test_decode_nop12 : decode layoutRef [0x12, 0x10] = .record (.nop12 [0x10]) [] := by decide
theorem test_decode_nop13 : decode layoutRef (0x13 :: List.replicate 65 0x06) = .record (.nop13 (List.replicate 65 0x06)) [] := by decide
theorem test_decode_nop14 : decode layoutRef [0x14, 0x10, 0x11, 0x12, 0x13] = .record (.nop14 [0x10, 0x11, 0x12, 0x13]) [] := by decide
theorem test_decode_nop15 : decode layoutRef [0x15, 0x10, 0x11] = .record (.nop15 [0x10, 0x11]) [] := by decide
theorem test_decode_nop16 : decode layoutRef [0x16, 0x10, 0x11] = .record (.nop16 [0x10, 0x11]) [] := by decide
theorem test_decode_nop17 : decode layoutRef [0x17, 0x10, 0x11, 0x12, 0x13] = .record (.nop17 [0x10, 0x11, 0x12, 0x13]) [] := by decide
theorem test_decode_nop18 : decode layoutRef [0x18, 0x10, 0x11] = .record (.nop18 [0x10, 0x11]) [] := by decide
theorem test_decode_nop19 : decode layoutRef [0x19, 0x10, 0x11] = .record (.nop19 [0x10, 0x11]) [] := by decide
theorem test_decode_nop1A : decode layoutRef [0x1A, 0x10] = .record (.nop1A [0x10]) [] := by decide
theorem test_decode_nop1B : decode layoutRef [0x1B, 0x10, 0x11, 0x12, 0x13] = .record (.nop1B [0x10, 0x11, 0x12, 0x13]) [] := by decide
theorem test_decode_nop1C : decode layoutRef [0x1C, 0x10, 0x11] = .record (.nop1C [0x10, 0x11]) [] := by decide
theorem test_decode_nop3D : decode layoutRef [0x3D, 0x10, 0x11, 0x12, 0x13] = .record (.nop3D [0x10, 0x11, 0x12, 0x13]) [] := by decide

/-- 95 P2. -/
theorem test_assemble_P2 :
    assemble layoutRef [.temp 220, .light [0x06, 0x01], .bat 3649, .temp (-32768)] =
      [0x01, 0x00, 0xDC, 0x04, 0x06, 0x01, 0x07, 0x0E, 0x41, 0x01, 0x80, 0x00] := by decide

/-- 95 P3, read back; the illegal occupancy byte stays raw. -/
theorem test_disassemble_P3 :
    disassemble layoutRef [0x06, 0x01, 0x90, 0x05, 0x01, 0x05, 0x09] =
      some [.co2 400, .occ .pendingOrPir, .occRaw 0x09] := by decide

/-- 30_encoding.md R67 writes one byte in two ways, and the named line comes back
(notes/assumptions/21.md). -/
theorem test_raw_byte_comes_back_named :
    assemble layoutRef [.occRaw 0x01, .extdRaw 0x00] = [0x05, 0x01, 0x0D, 0x00] ∧
    disassemble layoutRef [0x05, 0x01, 0x0D, 0x00] = some [.occ .pendingOrPir, .extd false] := by decide

/-- A temperature past the range of 30_encoding.md R67, and a no-op line of the wrong size. -/
theorem test_lines_out_of_range :
    (Line.temp 32768).inRange layoutRef = false ∧ (Line.nop 0x02 [0, 0]).inRange layoutRef = false := by
  decide

theorem test_decode_keeps_the_rest :
    decode layoutRef [0x05, 0x01, 0x06, 0x00] = .record (.occ 0x01) [0x06, 0x00] := by decide
theorem test_decode_unknown_tag : decode layoutRef [0x20, 0x05] = .unrecognizedTag 0x20 := by decide
theorem test_decode_truncated : decode layoutRef [0x3D, 0, 0, 0] = .truncated 0x3D 4 := by decide
theorem test_decode_empty : decode layoutRef [] = .empty := by decide
theorem test_decode_entry_without_row :
    decode layoutOther [0x50, 1, 2, 3] = .skip 0x50 2 [3] := by decide
theorem test_decode_misfit : decode layoutMisfit [0x01, 0, 0, 0] = .misfit 0x01 := by decide
/-- 30_encoding.md R67: `TEMP -200` assembles to `01 FF 38`. -/
theorem test_encode_temp : encode layoutRef (.temp (BitVec.ofInt 16 (-200))) = [0x01, 0xFF, 0x38] := by decide
theorem test_encode_extd : encode layoutRef (.extd 0x01) = [0x0D, 0x01] := by decide

/-- The table's words: the tag is the low byte, but in the EXTD row, which numbers it in bits 15..8. -/
theorem test_table_words :
    decodeTableWord 8 0x01 = some (.temp 0) ∧ decodeTableWord 8 0x13 = some (.nop13 (List.replicate 65 0)) ∧
    decodeTableWord 16 0x0D01 = some (.extd 0x01) ∧ decodeTableWord 8 0x20 = none := by decide
theorem test_fetch_word_runs :
    nextHas (step (State.reset.withFetchWord 8 0x13)) (fun t => t.cur = 66 && t.status = .busy) = true := by
  decide

/-! ## One step on the spec's vectors (95_test_vectors.md) -/

/-- 2.1: SEXT16. -/
theorem test_sext16 : sext16 0x8000 = -32768 ∧ sext16 0x7FFF = 32767 ∧ sext16 0xFF38 = -200 ∧
    sext16 0x00FF = 255 := by decide
/-- P1 step 1. -/
theorem test_temp_negative :
    nextHas (step (busyAt [0x01, 0xFF, 0x38, 0x06, 0x01, 0x90, 0x07, 0x0B, 0xB8, 0x05, 0x02] 0)) (fun t =>
      t.cur = 3 && t.record.temperature.map sext16 = some (-200) && t.record.co2 = none) = true := by decide
/-- P2 step 4: the repeated tag overwrites. -/
theorem test_temp_last_write_wins :
    nextHas (step { busyAt [0x01, 0x00, 0xDC, 0x01, 0x80, 0x00] 3 with
        record := { Record.empty with temperature := some 0x00DC } })
      (fun t => t.cur = 6 && t.record.temperature.map sext16 = some (-32768)) = true := by decide
/-- P1 step 2. -/
theorem test_co2 :
    nextHas (step (busyAt [0x01, 0xFF, 0x38, 0x06, 0x01, 0x90] 3)) (fun t =>
      t.cur = 6 && t.record.co2.map BitVec.toNat = some 400 && t.record.temperature = none) = true := by decide
/-- V-L1-3b: an exact fit is accepted, and 0 is present. -/
theorem test_co2_exact_fit :
    nextHas (step (busyAt [0x06, 0x00, 0x00] 0)) (fun t => t.status = .busy && t.record.co2 = some 0) = true := by
  decide
/-- V-L1-3a. -/
theorem test_co2_truncated :
    nextHas (step (busyAt [0x06, 0x00] 0)) (fun t => t.err = ⟨2, 0, 0x06, 2⟩ && t.status = .doneErr) = true := by
  decide
/-- 2.4. -/
theorem test_bat :
    nextHas (step (busyAt [0x07, 0x0E, 0x41] 0)) (fun t =>
      t.record.batteryMv.map BitVec.toNat = some 3649 && t.cur = 3) = true := by decide
/-- 2.5. -/
theorem test_occ :
    nextHas (step (busyAt [0x05, 0x02] 0)) (fun t =>
      readOccupancyCode t.record.occupancy = .ok (some .occupiedOrHeat) && t.cur = 2) = true := by decide
/-- P3 step 3. -/
theorem test_occ_illegal :
    nextHas (step { busyAt [0x06, 0x01, 0x90, 0x05, 0x01, 0x05, 0x09, 0x07, 0x0E, 0x41] 5 with
        record := ⟨none, some 400, none, some 1, none⟩ })
      (fun t => errIs t 3 6 0x09 && t.record = .empty && t.cur = 5) = true := by decide
/-- 2.6. -/
theorem test_extd :
    nextHas (step (busyAt [0x0D, 0x00] 0)) (fun t => t.record.externalDigital = some false && t.cur = 2) =
      true := by decide
theorem test_extd_illegal :
    nextHas (step (busyAt [0x0D, 0x02] 0)) (fun t => errIs t 3 1 0x02) = true := by decide
/-- 2.7: the payload byte `06` is not a tag. -/
theorem test_light :
    nextHas (step (busyAt [0x04, 0x06, 0x00] 0)) (fun t => t.record = .empty && t.cur = 3) = true := by decide
/-- 2.7: 0x11 is a no-op, and `07` is no enum error. -/
theorem test_nop11 :
    nextHas (step (busyAt [0x11, 0x07] 0)) (fun t => t.record = .empty && t.cur = 2) = true := by decide
/-- 2.7: 64 payload bytes are too few, 65 fit. -/
theorem test_nop13_boundary :
    nextHas (step (busyAt (0x13 :: List.replicate 64 0) 0)) (fun t => t.err = ⟨2, 0, 0x13, 65⟩) = true ∧
    nextHas (step (busyAt (0x13 :: List.replicate 65 0) 0)) (fun t => t.cur = 66 && t.status = .busy) = true := by
  decide
/-- 2.8: the first id in the gap after 0x1C. -/
theorem test_unknown_tag :
    nextHas (step (busyAt [0x1D, 0x00] 0)) (fun t => errIs t 1 0 0x1D) = true := by decide
/-- 2.5: truncation comes before the decoder. -/
theorem test_occ_truncated :
    nextHas (step (busyAt [0x05] 0)) (fun t => t.err = ⟨2, 0, 0x05, 1⟩) = true := by decide
/-- P1 step 5. -/
theorem test_loop_exit :
    nextHas (step (busyAt [0x05, 0x02] 2)) (fun t => t.status = .doneOk && t.cur = 2) = true := by decide
theorem test_entry_without_row_is_skipped :
    nextHas (step { busyAt [0x50, 1, 2] 0 with layout := layoutOther }) (fun t => t.cur = 3) = true := by decide
theorem test_misfit_is_refused :
    isRefused (step { busyAt [0x01, 0, 0, 0] 0 with layout := layoutMisfit }) (.inadmissibleEntry 0x01) =
      true := by decide
/-- The document's function on P2 and P3. -/
theorem test_deserialize :
    deserialize layoutRef [0x01, 0x00, 0xDC, 0x04, 0x06, 0x01, 0x07, 0x0E, 0x41, 0x01, 0x80, 0x00] =
      some (.ok ⟨some (-32768), none, some 3649, none, none⟩) ∧
    deserialize layoutRef [0x06, 0x01, 0x90, 0x05, 0x01, 0x05, 0x09] =
      some (.error (.invalidEnumValue 6 0x09)) := by decide
/-- V-L1-9 and 2.9. -/
theorem test_record_equality :
    tempEq (some 220) (some 220) = true ∧ tempEq (some 220) (some 221) = false ∧
    recordEq ⟨none, some 0, none, none, none⟩ .empty = false := by
  refine ⟨?_, ?_, rfl⟩ <;> norm_num [tempEq]
/-- 22.0 °C in binary32 is 11534336 · 2⁻¹⁹, and 0.1 °C is 13421773 · 2⁻²⁷ (IEEE 754: 0x3DCCCCCD). -/
theorem test_float_views :
    (⟨some 220, none, none, none, none⟩ : DecodedRecord).celsiusFloat ⟨24, -126, 127⟩ =
      some (.finite false 11534336 (-19)) ∧
    (⟨some 1, none, none, none, none⟩ : DecodedRecord).celsiusFloat ⟨24, -126, 127⟩ =
      some (.finite false 13421773 (-27)) := by decide
/-! ## Witnesses: for each statement with hypotheses, concrete states and operands that meet them -/

theorem witness_Sext16WidensTwosComplement :
    (0x7FFF : Half).getLsbD 15 = false ∧ (0x8000 : Half).getLsbD 15 = true := by decide

theorem witness_DecodeOfEncodeIsTheRecord :
    layoutRef.admissible = true ∧ (Instr.extd 0xFF).wellFormed layoutRef = true ∧
    (Instr.nop13 (List.replicate 65 1)).wellFormed layoutRef = true := by decide

theorem witness_EncodeOfDecodeIsTheBytes :
    layoutRef.admissible = true ∧ decode layoutRef [0x05, 0xFF, 0x20] = .record (.occ 0xFF) [0x20] := by
  decide

/-- 95 P1, with an operand at each end of a range, and raw bytes that have names. -/
theorem witness_StreamNotationIsOneToOne :
    layoutRef.admissible = true ∧
    ([.temp (-200), .co2 65535, .bat 0, .occ .occupiedOrHeat, .occRaw 0x03, .extd false, .extdRaw 0x02,
        .light [6, 0], .nop 0x02 [0xFF]] : List Line).all
      (fun l => l.isRecord && l.inRange layoutRef && l.named) = true ∧
    ([.occRaw 0x00, .occRaw 0x02, .extdRaw 0x00, .extdRaw 0x01] : List Line).all
      (fun l => l.isRecord && l.inRange layoutRef && !l.named) = true := by decide

theorem witness_IllegalTagsAreCounted :
    layoutOther.admissible = true ∧
    (busyAt [0x20] 0).status = .busy ∧ (busyAt [0x20] 0).memRead 0 = some 0x20 ∧
    layoutRef.lookup 0x20 = none := by decide

theorem witness_EnumRecords :
    (0x02 : Byte).toNat ≤ 2 ∧ (0x01 : Byte).toNat ≤ 1 ∧ 3 ≤ (0x03 : Byte).toNat ∧ 2 ≤ (0x02 : Byte).toNat := by
  decide

theorem witness_NoopRecordsComplete :
    ∃ t : State, t = { busyAt [0x02, 0xFF] 0 with cur := 0 + [(0xFF : Byte)].length + 1 } := ⟨_, rfl⟩

theorem witness_RecordsWriteOnlyTheirField :
    (∃ t, exec (.occ 0x02) (busyAt [0x05, 0x02] 0) = .next t) ∧
    (∃ t, exec (.occ 0x03) (busyAt [0x05, 0x03] 0) = .next t) ∧
    (∃ t, exec (.nop02 [0xFF]) (busyAt [0x02, 0xFF] 0) = .next t) := ⟨⟨_, rfl⟩, ⟨_, rfl⟩, ⟨_, rfl⟩⟩

theorem witness_StepRunsTheDecodedRecord :
    (busyAt [0x05, 0x01, 0x20] 0).status = .busy ∧
    (busyAt [0x05, 0x01, 0x20] 0).readSpan 0 3 = some [0x05, 0x01, 0x20] ∧
    decode layoutRef [0x05, 0x01, 0x20] = .record (.occ 0x01) [0x20] := by decide

theorem witness_TableWordRunsAsItsRecord :
    State.reset.layout = layoutRef ∧ decodeTableWord 8 0x06 = some (.co2 0) := by decide

theorem witness_StepFollowsTheDecoder :
    ((busyAt [] 0).readSpan 0 0 = some [] ∧ decode layoutRef [] = .empty) ∧
    ((busyAt [0x20] 0).readSpan 0 1 = some [0x20] ∧ decode layoutRef [0x20] = .unrecognizedTag 0x20) ∧
    ((busyAt [0x05] 0).readSpan 0 1 = some [0x05] ∧ decode layoutRef [0x05] = .truncated 0x05 1) ∧
    (({ busyAt [0x50, 1, 2] 0 with layout := layoutOther } : State).readSpan 0 3 = some [0x50, 1, 2] ∧
      decode layoutOther [0x50, 1, 2] = .skip 0x50 2 []) ∧
    (({ busyAt [1, 0, 0, 0] 0 with layout := layoutMisfit } : State).readSpan 0 4 = some [1, 0, 0, 0] ∧
      decode layoutMisfit [1, 0, 0, 0] = .misfit 1) := by decide

theorem witness_sixteenBitRecordsInTheBuffer :
    layoutRef.admissible = true ∧
    (busyAt [0x01, 0x80, 0x00] 0).readSpan 0 3 = some [0x01, 0x80, 0x00] ∧
    (busyAt [0x06, 0xFF, 0xFF] 0).readSpan 0 3 = some [0x06, 0xFF, 0xFF] ∧
    (busyAt [0x07, 0x00, 0x00] 0).readSpan 0 3 = some [0x07, 0x00, 0x00] ∧
    ((busyAt [0x01, 0x00] 0).memRead 0 = some 0x01 ∧ (busyAt [0x01, 0x00] 0).len ≤ 0 + 2) ∧
    ((busyAt [0x06, 0x00] 0).memRead 0 = some 0x06 ∧ (busyAt [0x06, 0x00] 0).len ≤ 0 + 2) ∧
    ((busyAt [0x07, 0x00] 0).memRead 0 = some 0x07 ∧ (busyAt [0x07, 0x00] 0).len ≤ 0 + 2) ∧
    (∃ d, ({ Record.empty with temperature := some 0x8000 } : Record).decoded = .ok d) := by
  refine ⟨by decide, by decide, by decide, by decide, by decide, by decide, by decide, ⟨_, rfl⟩⟩

theorem witness_enumRecordsInTheBuffer :
    layoutRef.admissible = true ∧
    (busyAt [0x05, 0x02] 0).readSpan 0 2 = some [0x05, 0x02] ∧
    (busyAt [0x05, 0x03] 0).readSpan 0 2 = some [0x05, 0x03] ∧
    ((busyAt [0x05] 0).memRead 0 = some 0x05 ∧ (busyAt [0x05] 0).len ≤ 0 + 1) ∧
    (busyAt [0x0D, 0x01] 0).readSpan 0 2 = some [layoutRef.extdTag, 0x01] ∧
    (busyAt [0x0D, 0x02] 0).readSpan 0 2 = some [layoutRef.extdTag, 0x02] ∧
    ((busyAt [0x0D] 0).memRead 0 = some layoutRef.extdTag ∧ (busyAt [0x0D] 0).len ≤ 0 + 1) := by decide

theorem witness_NoopEntryConsumesItsSpan :
    (⟨0x50, 2, .noop⟩ : Entry) ∈ layoutOther ∧ layoutOther.admissible = true ∧
    ((busyAt [0x50, 1, 2] 0).memRead 0 = some 0x50 ∧ (busyAt [0x50, 1, 2] 0).len > 0 + 2) ∧
    ((busyAt [0x50, 1] 0).memRead 0 = some 0x50 ∧ (busyAt [0x50, 1] 0).len ≤ 0 + 2) ∧
    (({ busyAt [0x50] 0 with len := 3 } : State).memRead 0 = some 0x50 ∧
      ({ busyAt [0x50] 0 with len := 3 } : State).memRead 1 = none) := by decide

/-- LIGHT with no payload byte in the buffer: a no-op reads none (20_memory.md R45). -/
theorem test_noop_reads_no_payload :
    nextHas (step { busyAt [0x04] 0 with len := 3 }) (fun t => t.cur = 3 && t.status = .busy) = true := by
  decide

theorem witness_LightRecordConsumesL4 :
    layoutRef.lightSize = some 2 ∧
    ((busyAt [0x04, 0x06, 0x00] 0).memRead 0 = some 0x04 ∧ (busyAt [0x04, 0x06, 0x00] 0).len > 0 + 2) ∧
    ((busyAt [0x04, 0x06] 0).memRead 0 = some 0x04 ∧ (busyAt [0x04, 0x06] 0).len ≤ 0 + 2) := by decide

theorem witness_ReferenceNoopRows :
    ((busyAt (0x13 :: List.replicate 65 0) 0).memRead 0 = some 0x13 ∧
      (busyAt (0x13 :: List.replicate 65 0) 0).len > 0 + 65) ∧
    ((busyAt (0x13 :: List.replicate 64 0) 0).memRead 0 = some 0x13 ∧
      (busyAt (0x13 :: List.replicate 64 0) 0).len ≤ 0 + 65) ∧
    (busyAt [0x3D, 0, 0, 0, 0] 0).layout = layoutRef := by decide

theorem witness_LoopExitSucceeds :
    (busyAt [0x20] 1).status = .busy ∧ (busyAt [0x20] 1).cur ≥ (busyAt [0x20] 1).len ∧
    (∃ d, (busyAt [0x20] 1).record.decoded = .ok d) ∧ (busyAt [0x20] 1).Inv :=
  ⟨rfl, by decide, ⟨_, rfl⟩, busyAt_inv _ _ (by decide)⟩

theorem witness_UnknownTagEndsTheDecode :
    (busyAt [0x05, 0x01, 0x20] 2).status = .busy ∧ (busyAt [0x05, 0x01, 0x20] 2).memRead 2 = some 0x20 ∧
    layoutRef.lookup 0x20 = none ∧ layoutRef.admissible = true := by decide

theorem witness_BoundsCheckIsStrict :
    layoutRef.lookup 0x05 = some ⟨0x05, 1, .occ⟩ ∧
    ((busyAt [0x05] 0).memRead 0 = some 0x05 ∧ ¬ (busyAt [0x05] 0).len > 0 + 1) ∧
    ((busyAt [0x05, 0x03] 0).memRead 0 = some 0x05 ∧ (busyAt [0x05, 0x03] 0).len > 0 + 1 ∧
      nextHas (step (busyAt [0x05, 0x03] 0)) (fun t => t.status = .doneErr) = true) := by decide

theorem witness_IllegalEnumByteEndsTheDecode :
    (layoutRef.lookup 0x05 = some ⟨0x05, 1, .occ⟩ ∧
      (busyAt [0x05, 0x03] 0).readSpan 0 2 = some [0x05, 0x03] ∧ (0x03 : Byte).toNat ∉ [0, 1, 2]) ∧
    (layoutRef.lookup 0x0D = some ⟨0x0D, 1, .extd⟩ ∧
      (busyAt [0x0D, 0x02] 0).readSpan 0 2 = some [0x0D, 0x02] ∧ (0x02 : Byte).toNat ∉ [0, 1]) := by decide

/-- Each of the three errors ends a step that starts `BUSY`. -/
theorem witness_errorSteps :
    (∃ t, step (busyAt [0x20] 0) = .next t ∧ t.status = .doneErr) ∧
    (∃ t, step (busyAt [0x06, 0x00] 0) = .next t ∧ t.status = .doneErr) ∧
    (∃ t, step (busyAt [0x05, 0x03] 0) = .next t ∧ t.status = .doneErr) :=
  ⟨⟨_, rfl, rfl⟩, ⟨_, rfl, rfl⟩, ⟨_, rfl, rfl⟩⟩

/-- A record is accepted, with a content decoder and with the no-op decoder. -/
theorem witness_acceptedSteps :
    (∃ t, step (busyAt [0x05, 0x02] 0) = .next t ∧ t.status = .busy) ∧
    (∃ t, step (busyAt [0x02, 0xFF] 0) = .next t ∧ t.status = .busy) :=
  ⟨⟨_, rfl, rfl⟩, ⟨_, rfl, rfl⟩⟩

theorem witness_requests :
    admitsLength ([] : List Byte).length = true ∧ (∃ t, State.reset.request [] = .next t) ∧
    State.reset.status ≠ .busy ∧ (busyAt [] 0).status = .busy :=
  ⟨admitsLength_zero, ⟨_, request_admitted (by decide) admitsLength_zero⟩, by decide, rfl⟩

theorem witness_statusOutsideBusy :
    State.reset.status = .idle ∧ ({ State.reset with status := .doneOk } : State).status = .doneOk ∧
    ({ State.reset with status := .doneErr } : State).status = .doneErr := by decide

theorem witness_ErrorRegistersReadableOnlyAfterAnError :
    State.reset.status ≠ .doneErr ∧
    (∃ s : State, s.status = .doneErr ∧ s.err.kind = ErrKind.truncatedPayload.code) ∧
    (∃ s : State, s.status = .doneErr ∧ s.err.kind = ErrKind.unrecognizedTag.code) :=
  ⟨by decide, ⟨State.reset.raise .truncatedPayload 0 0 (some 1), rfl, rfl⟩,
    ⟨State.reset.raise .unrecognizedTag 0 0 none, rfl, rfl⟩⟩

theorem witness_ViewsProjectTheRecord :
    State.reset.status ≠ .doneOk ∧
    ({ State.reset with status := .doneOk } : State).status = .doneOk ∧
    ({ Record.empty with occupancy := some 2 } : Record).occupancy ≠ some 3 := by decide

theorem witness_FloatViewsRoundToNearestEven :
    1 ≤ (⟨24, -126, 127⟩ : FloatFmt).precision ∧ 0 < 10 ∧
    ({ State.reset with status := .doneOk } : State).status = .doneOk ∧
    ({ Record.empty with temperature := some 0xFF38 } : Record).occupancy ≠ some 3 := by decide

/-- −0.2 °C in binary16: 2/10 is 1638.4 · 2^-13, so the nearest number is −1638 · 2^-13, by hand from 42
R126; and the zero count. -/
theorem test_float_view_rounds :
    ({ State.reset with
        status := .doneOk
        record := { Record.empty with temperature := some 0xFFFE, batteryMv := some 0 } } :
        State).viewCelsiusFloat ⟨11, -14, 15⟩ = .ok (some (.finite true 1638 (-13))) ∧
    roundRatio ⟨11, -14, 15⟩ false 0 1000 = .finite false 0 (-24) := by decide

/-- 63.999 V and 64 V are one number of binary16, and one term: 1024 · 2^-4. -/
theorem test_float_view_renormalises :
    roundRatio ⟨11, -14, 15⟩ false 63999 1000 = .finite false 1024 (-4) ∧
    roundRatio ⟨11, -14, 15⟩ false 64000 1000 = .finite false 1024 (-4) := by decide

/-- A sound state in progress, one at the end of its buffer, and its step. -/
theorem witness_soundStates :
    (busyAt [0x05, 0x02] 0).Inv ∧ (busyAt [0x05, 0x02] 2).Inv ∧ (busyAt [0x05, 0x02] 0).status = .busy ∧
    (∃ t, step (busyAt [0x05, 0x02] 0) = .next t) :=
  ⟨busyAt_inv _ _ (by decide), busyAt_inv _ _ (by decide), rfl, ⟨_, rfl⟩⟩

theorem witness_RefusalNeedsAnInadmissibleTable :
    ∃ r, step { busyAt [0x01, 0, 0, 0] 0 with layout := layoutMisfit } = .refused r := ⟨_, rfl⟩

/-- Two buffers that agree on the record at the cursor and differ after it. -/
theorem witness_StepReadsOnlyItsRecord :
    (busyAt [0x05, 0x02, 0x20] 0).memRead 0 = some 0x05 ∧
    layoutRef.lookup 0x05 = some ⟨0x05, 1, .occ⟩ ∧
    ({ busyAt [0x05, 0x02, 0x20] 0 with mem := .ofBytes [0x05, 0x02, 0xFF] } : State).memRead 0 =
      (busyAt [0x05, 0x02, 0x20] 0).memRead 0 ∧
    (∀ k, 0 < k → k ≤ 0 + 1 →
      ({ busyAt [0x05, 0x02, 0x20] 0 with mem := .ofBytes [0x05, 0x02, 0xFF] } : State).memRead k =
        (busyAt [0x05, 0x02, 0x20] 0).memRead k) ∧
    (∃ t, step (busyAt [0x05, 0x02, 0x20] 0) = .next t) ∧
    layoutRef.lookup 0x04 = some ⟨0x04, 2, .noop⟩ ∧
    ({ busyAt [0x04, 1, 2] 0 with mem := .ofBytes [0x04] } : State).memRead 0 =
      (busyAt [0x04, 1, 2] 0).memRead 0 := by
  refine ⟨rfl, rfl, rfl, fun k h0 hk => ?_, ⟨_, rfl⟩, rfl, rfl⟩
  obtain rfl : k = 1 := by omega
  rfl

theorem witness_SteppingRefinesDeserialize :
    (busyAt [] 0).layout.admissible = true ∧
    ({ State.reset with layout := layoutOther } : State).layout.admissible = true := by decide

theorem witness_ResponseDependsOnBufferAndTable :
    State.reset.layout = (busyAt [0x20] 0).layout ∧
    ∃ t, Sys2Proof.core.run 1 (State.reset.latch [0x20]) = .next t := ⟨rfl, ⟨_, rfl⟩⟩

theorem witness_NoopStreamLeavesEveryFieldAbsent :
    ∀ c ∈ [[(0x02 : Byte), 0xFF], [0x0F, 0x06]], ∃ e, IsRecordOf layoutRef e c ∧ e.dec = .noop := by
  intro c hc
  rcases List.mem_cons.1 hc with rfl | hc
  · exact ⟨⟨0x02, 1, .noop⟩, ⟨0x02, [0xFF], rfl, by decide, rfl⟩, rfl⟩
  · rw [List.mem_singleton] at hc
    subst hc
    exact ⟨⟨0x0F, 1, .noop⟩, ⟨0x0F, [0x06], rfl, by decide, rfl⟩, rfl⟩

/-- Two decodes interleaved: instance 0 makes its request after instance 1 has begun on `[05 02 20]`. -/
theorem witness_InstancesAreIndependent :
    (∀ (j : Nat) (s : State), [State.reset, State.reset.latch [0x05, 0x02, 0x20]][j]? = some s →
      s.layout.admissible = true ∧
      IsDecodeOf s (if j = 0 then [] else [0x05, 0x02, 0x20])
        (movesOf j [(1, .step), (0, .request []), (1, .step), (0, .step), (1, .step), (1, .step)])) ∧
    (0 : Nat) ≠ 1 ∧
    (∃ ss, moveAt [busyAt [0x05, 0x02] 0, State.reset] 0 .step = .next ss) ∧
    (∃ ss, moveAt [busyAt [0x05, 0x02] 0, State.reset] 1 .step = .next ss) := by
  refine ⟨fun j s h => ?_, by decide, ⟨_, rfl⟩, ⟨_, rfl⟩⟩
  match j with
  | 0 => cases h; exact ⟨layoutRef_admissible, 1, le_rfl, .inl ⟨by decide, admitsLength_zero, rfl⟩⟩
  | 1 => cases h; exact ⟨layoutRef_admissible, 4, le_rfl, .inr ⟨⟨_, rfl⟩, rfl⟩⟩
  | _ + 2 => cases h

end Sys2Proof.Machine
end

/-!
PROOFS. The family of 10_state.md: the transitions of `status` (R24), the buffer and the table that
nothing writes (R26), and the stream of no-op records (R34).
-/

namespace Sys2Proof.Machine

/-! ## What a step in progress does to the status -/

/-- The three ways out of a step in progress: the loop exit at the end of the buffer, a record accepted,
an error raised (40_dispatch.md R71 to R76). -/
theorem step_busy_cases {s t : State} (hs : s.status = .busy) (h : step s = .next t) :
    (s.len ≤ s.cur ∧ t = s.finish) ∨ (s.cur < s.len ∧ t.status = .busy) ∨
      (s.cur < s.len ∧ ∃ k index byte size, t = s.raise k index byte size) := by
  rcases step_cases h with ⟨hn, -⟩ | ⟨-, hc, rfl⟩ | ⟨b, -, hb, -, rfl⟩ | ⟨b, e, -, hb, -, -, rfl⟩ |
    ⟨b, e, -, hb, -, -, -, rfl⟩ | ⟨b, e, p, i, -, hb, -, -, -, -, -, hx⟩
  · exact absurd hs hn
  · exact .inl ⟨hc, rfl⟩
  · exact .inr (.inr ⟨State.memRead_lt hb, _, _, _, _, rfl⟩)
  · exact .inr (.inr ⟨State.memRead_lt hb, _, _, _, _, rfl⟩)
  · exact .inr (.inl ⟨State.memRead_lt hb, by simp [hs]⟩)
  · rcases exec_accepts_or_raises hx with ⟨ht, -⟩ | ⟨b', -, rfl⟩
    · exact .inr (.inl ⟨State.memRead_lt hb, ht.trans hs⟩)
    · exact .inr (.inr ⟨State.memRead_lt hb, _, _, _, _, rfl⟩)

/-- A state that is not in `DONE_ERR` is no raised error. -/
theorem State.ne_raise_of_status {s t : State} (h : t.status ≠ .doneErr) :
    ¬ ∃ k index byte size, t = s.raise k index byte size := by
  rintro ⟨k, index, byte, size, rfl⟩
  exact h rfl

theorem State.readErr_of_status {s : State} (h : s.status ≠ .doneErr) :
    s.readErr = .error .errNotReadable := by
  cases hs : s.status <;> simp_all [State.readErr, State.errReadable]

theorem request_while_busy {s : State} (h : s.status = .busy) (bytes : List Byte) :
    s.request bytes = .refused .requestWhileBusy := by
  simp [State.request, h]

/-- Settles O36: the three ways out of a step in progress decide its status, and an admitted request is
the latch. -/
theorem statusTransitions : Obligations.StatusTransitions := by
  refine ⟨fun s t h => ⟨fun hs => ?outside, fun hs => ?inside⟩, fun s t bytes h => ?admitted,
    fun s bytes hs ha => ⟨_, request_admitted hs ha⟩, fun s bytes hs => request_while_busy hs bytes⟩
  case outside =>
    rw [step_not_busy hs] at h
    cases h
    rfl
  case inside =>
    rcases step_busy_cases hs h with ⟨hc, rfl⟩ | ⟨hc, ht⟩ | ⟨hc, hr⟩
    · have hne := State.ne_raise_of_status (s := s) (t := s.finish) (by simp)
      exact ⟨by simp, by simpa using hc, by simp [hne]⟩
    · have hne := State.ne_raise_of_status (s := s) (t := t) (by simp [ht])
      exact ⟨by simp [ht], by simp [ht, hc], by simp [ht, hne]⟩
    · have ht : t.status = .doneErr := by
        obtain ⟨k, index, byte, size, rfl⟩ := hr
        rfl
      exact ⟨by simp [ht], by simp [ht, hc], by simp [ht, hr]⟩
  case admitted =>
    obtain ⟨hs, -, rfl⟩ := request_cases h
    exact ⟨hs, rfl, rfl, rfl, State.readErr_of_status (by simp)⟩

/-! ## What no step writes -/

/-- A record's meaning writes neither the buffer nor the table. -/
theorem exec_keeps_input {i : Instr} {s t : State} (h : exec i s = .next t) :
    t.mem = s.mem ∧ t.len = s.len ∧ t.layout = s.layout := by
  rcases exec_cases i s with ⟨v, -, h'⟩ | ⟨v, -, h'⟩ | ⟨v, -, h'⟩ | ⟨b, o, -, -, h'⟩ |
    ⟨b, d, -, -, h'⟩ | ⟨b, -, h'⟩ | ⟨-, h'⟩
  all_goals
    rw [h'] at h
    cases h
    exact ⟨rfl, rfl, rfl⟩

/-- A step writes neither the buffer nor the table, in any status. -/
theorem step_keeps_input {s t : State} (h : step s = .next t) :
    t.mem = s.mem ∧ t.len = s.len ∧ t.layout = s.layout := by
  rcases step_cases h with ⟨-, rfl⟩ | ⟨-, -, rfl⟩ | ⟨b, -, -, -, rfl⟩ | ⟨b, e, -, -, -, -, rfl⟩ |
    ⟨b, e, -, -, -, -, -, rfl⟩ | ⟨b, e, p, i, -, -, -, -, -, -, -, hx⟩
  case inr.inr.inr.inr.inr => exact exec_keeps_input hx
  all_goals exact ⟨rfl, rfl, rfl⟩

/-- Settles O38: every byte read follows from the buffer and its length, which neither a step nor a
record's meaning writes. -/
theorem bufferAndLayoutAreNeverWritten : Obligations.BufferAndLayoutAreNeverWritten := by
  refine ⟨fun s t h => ?_, fun s t bytes h => ?_, State.powerOnReset_layout,
    fun L hL => (Layout.admissible_parts hL).1⟩
  · have hkeep : t.mem = s.mem ∧ t.len = s.len ∧ t.layout = s.layout := by
      rcases h with h | ⟨i, h⟩
      · exact step_keeps_input h
      · exact exec_keeps_input h
    obtain ⟨hmem, hlen, hlayout⟩ := hkeep
    exact ⟨hmem, hlen, hlayout, State.memRead_congr hmem hlen⟩
  · obtain ⟨-, -, rfl⟩ := request_cases h
    rfl

/-! ## The bytes ahead of the cursor -/

/-- The buffer holds exactly `bytes` from the cursor to its end. -/
def State.ahead (s : State) (bytes : List Byte) : Prop :=
  s.len = s.cur + bytes.length ∧ ∀ k, s.memRead (s.cur + k) = bytes[k]?

theorem State.latch_ahead (s : State) (bytes : List Byte) : (s.latch bytes).ahead bytes := by
  simp [State.ahead]

/-- At a record, the cursor is at its tag and the whole record lies in the buffer. -/
theorem State.ahead.tag {s : State} {b : Byte} {p rest : List Byte} (h : s.ahead (b :: p ++ rest)) :
    s.memRead s.cur = some b ∧ s.cur + p.length < s.len := by
  obtain ⟨hlen, hread⟩ := h
  refine ⟨by simpa using hread 0, ?_⟩
  simp only [List.length_append, List.length_cons] at hlen
  omega

/-- The advance past a record leaves the bytes after it ahead. -/
theorem State.ahead.advance {s : State} {b : Byte} {p rest : List Byte}
    (h : s.ahead (b :: p ++ rest)) : (s.advance p.length).ahead rest := by
  obtain ⟨hlen, hread⟩ := h
  simp only [List.length_append, List.length_cons] at hlen
  refine ⟨by rw [State.advance_len, State.advance_cur]; omega, fun k => ?_⟩
  calc (s.advance p.length).memRead (s.cur + p.length + 1 + k)
      = s.memRead (s.cur + p.length + 1 + k) := State.memRead_congr rfl rfl _
    _ = s.memRead (s.cur + ((b :: p).length + k)) := by
        simp only [List.length_cons, Nat.add_assoc]
    _ = (b :: p ++ rest)[(b :: p).length + k]? := hread _
    _ = rest[k]? := by
        rw [List.getElem?_append_right (Nat.le_add_right _ _), Nat.add_sub_cancel_left]

/-! ## A stream of no-op records -/

/-- With only no-op records ahead, a decode in progress succeeds and leaves the record registers as they
are; one step for each byte ahead and one more suffice. -/
theorem core_run_noops {cs : List (List Byte)} {s : State} {fuel : Nat} (hs : s.status = .busy)
    (hcs : ∀ c ∈ cs, ∃ e, IsRecordOf s.layout e c ∧ e.dec = .noop) (ha : s.ahead cs.flatten)
    (hfuel : cs.flatten.length < fuel) :
    ∃ t, Sys2Proof.core.run fuel s = .next t ∧ t.status = .doneOk ∧ t.record = s.record := by
  induction cs generalizing s fuel with
  | nil =>
    obtain ⟨k, rfl⟩ := Nat.exists_eq_add_one_of_ne_zero (Nat.ne_zero_of_lt hfuel)
    have hend : s.len ≤ s.cur := ha.1.le
    rw [core_run_succ, step_exit hs hend]
    exact ⟨s.finish, core_run_hold (by simp) k, rfl, rfl⟩
  | cons c cs ih =>
    obtain ⟨k, rfl⟩ := Nat.exists_eq_add_one_of_ne_zero (Nat.ne_zero_of_lt hfuel)
    obtain ⟨e, ⟨b, p, rfl, hl, hp⟩, hd⟩ := hcs c List.mem_cons_self
    rw [List.flatten_cons] at ha hfuel
    obtain ⟨hb, hN⟩ := ha.tag
    have hnext := ha.advance
    rw [hp] at hN hnext
    rw [core_run_succ, step_noop hs hb hl hN hd]
    refine ih hs (fun c hc => hcs c (List.mem_cons_of_mem _ hc)) hnext ?_
    simp only [List.length_append, List.length_cons] at hfuel
    omega

/-- The host reads the empty record of a successful decode as every field absent. -/
theorem response_of_doneOk_empty {t : State} (hs : t.status = .doneOk) (hr : t.record = .empty) :
    t.response = .ok (.ok .empty) := by
  simp only [State.response, State.readRecord, hs, hr]
  rfl

/-- Settles O59: a request puts the whole stream ahead of the cursor, with an empty record, and every
record of it is a no-op. The table need not be admissible. -/
theorem noopStreamLeavesEveryFieldAbsent : Obligations.NoopStreamLeavesEveryFieldAbsent := by
  intro s cs _ hcs
  obtain ⟨t, hrun, hstatus, hrecord⟩ :=
    core_run_noops (State.latch_status s cs.flatten) hcs (State.latch_ahead s cs.flatten)
      (Nat.lt_succ_self _)
  exact ⟨t, hrun, hstatus, hrecord, response_of_doneOk_empty hstatus hrecord⟩

end Sys2Proof.Machine

/-!
PROOFS. The family of 30_encoding.md: what the lookup of a table answers (R58).
-/

namespace Sys2Proof

/-- The model's `lookup` is the library's search for the first entry with the identifier. -/
theorem Layout.lookup_eq_find? (L : Layout) (t : Byte) :
    L.lookup t = List.find? (fun e => decide (e.id = t)) L := by
  induction L with
  | nil => rfl
  | cons e L ih => by_cases h : e.id = t <;> simp [Layout.lookup, h, ih]

/-- A lookup answers an entry exactly when it stands at some position with the identifier and no earlier
position has it (30_encoding.md R58). -/
theorem Layout.lookup_eq_some_iff {L : Layout} {t : Byte} {e : Entry} :
    L.lookup t = some e ↔
      ∃ k : Nat, L[k]? = some e ∧ e.id = t ∧
        ∀ j, j < k → ∀ e' : Entry, L[j]? = some e' → e'.id ≠ t := by
  rw [Layout.lookup_eq_find?, List.find?_eq_some_iff_getElem]
  constructor
  · rintro ⟨hid, k, hk, he, hfirst⟩
    refine ⟨k, List.getElem?_eq_some_iff.2 ⟨hk, he⟩, of_decide_eq_true hid, fun j hj e' he' => ?_⟩
    obtain ⟨_, rfl⟩ := List.getElem?_eq_some_iff.1 he'
    simpa using hfirst j hj
  · rintro ⟨k, he, hid, hfirst⟩
    obtain ⟨hk, he⟩ := List.getElem?_eq_some_iff.1 he
    refine ⟨decide_eq_true hid, k, hk, he, fun j hj => ?_⟩
    simpa using hfirst j hj _ (List.getElem?_eq_getElem (hj.trans hk))

/-- A lookup answers none exactly when no entry of the table has the identifier (40_dispatch.md R70). -/
theorem Layout.lookup_eq_none_iff {L : Layout} {t : Byte} :
    L.lookup t = none ↔ ∀ e ∈ L, e.id ≠ t := by
  simp [Layout.lookup_eq_find?, List.find?_eq_none]

end Sys2Proof

namespace Sys2Proof.Machine

/-- Settles O5: the search in table order is the library's `find?`, whose answer is the first match. -/
theorem lookupIsFirstMatch : Obligations.LookupIsFirstMatch := fun _ _ =>
  ⟨fun _ => Layout.lookup_eq_some_iff, Layout.lookup_eq_none_iff⟩

end Sys2Proof.Machine

/-!
PROOFS. The family of 40_dispatch.md: the ways a step ends a decode (R71 to R73, R78), the advance past an
accepted record (R76), the refinement of `deserialize` (R77), and determinism (R81).
-/

namespace Sys2Proof

open Machine

/-! ## What a record's meaning does to the record registers -/

/-- The record registers after record `i` is accepted, or none where its payload byte is illegal
(41_field_decoders.md R87 to R92). -/
def Instr.written (r : Record) : Instr → Option Record
  | .temp v => some { r with temperature := some v }
  | .co2 v => some { r with co2 := some v }
  | .bat v => some { r with batteryMv := some v }
  | .occ b => (occupancyOf b).map fun o => { r with occupancy := some o.code }
  | .extd b => (contactOf b).map fun d => { r with externalDigital := some d }
  | _ => some r

theorem Instr.written_noop {i : Instr} (h : i.isNoop = true) (r : Record) : i.written r = some r := by
  cases i
  case temp | co2 | bat | occ | extd => cases h
  all_goals rfl

/-- Only the two enumerations have illegal payload bytes (41_field_decoders.md R90, R91). -/
theorem Instr.written_eq_none {i : Instr} {r : Record} (h : i.written r = none) :
    ∃ b, i = .occ b ∧ occupancyOf b = none ∨ i = .extd b ∧ contactOf b = none := by
  cases i
  case occ b => exact ⟨b, .inl ⟨rfl, Option.map_eq_none_iff.1 h⟩⟩
  case extd b => exact ⟨b, .inr ⟨rfl, Option.map_eq_none_iff.1 h⟩⟩
  all_goals cases h

/-- Everything an entry and a payload that spell a record can be (30_encoding.md R56). -/
theorem Entry.spell_row_cases {e : Entry} {p : List Byte} {i : Instr} (h : e.spell p = .row i) :
    (∃ p0 p1, p = [p0, p1] ∧ (e.dec = .temp ∧ i = .temp (be16 p0 p1) ∨
        e.dec = .co2 ∧ i = .co2 (be16 p0 p1) ∨ e.dec = .bat ∧ i = .bat (be16 p0 p1))) ∨
      (∃ b, p = [b] ∧ (e.dec = .occ ∧ i = .occ b ∨ e.dec = .extd ∧ i = .extd b)) ∨
      (e.dec = .noop ∧ i.isNoop = true) := by
  obtain ⟨-, hnoop, -, -⟩ := Entry.spell_row h
  unfold Entry.spell at h
  split at h
  case h_1 hd => cases h; exact .inl ⟨_, _, rfl, .inl ⟨hd, rfl⟩⟩
  case h_2 hd => cases h; exact .inl ⟨_, _, rfl, .inr (.inl ⟨hd, rfl⟩)⟩
  case h_3 hd => cases h; exact .inl ⟨_, _, rfl, .inr (.inr ⟨hd, rfl⟩)⟩
  case h_4 hd => cases h; exact .inr (.inl ⟨_, rfl, .inl ⟨hd, rfl⟩⟩)
  case h_5 hd => cases h; exact .inr (.inl ⟨_, rfl, .inr ⟨hd, rfl⟩⟩)
  case h_6 hd => exact .inr (.inr ⟨hd, by simpa [hd] using hnoop⟩)
  case h_7 => cases h

end Sys2Proof

namespace Sys2Proof.Machine

/-- A record accepted: the registers take `r`, and the cursor moves past the tag and `size` payload bytes
(40_dispatch.md R76). -/
def State.accept (s : State) (r : Record) (size : Nat) : State := { s with record := r }.advance size

@[simp] theorem State.accept_cur (s : State) (r : Record) (n : Nat) :
    (s.accept r n).cur = s.cur + n + 1 := rfl

/-- A record whose payload is legal is accepted. -/
theorem exec_of_written {i : Instr} {s : State} {r : Record} (h : i.written s.record = some r) :
    exec i s = .next (s.accept r i.size) := by
  rcases exec_cases i s with ⟨v, rfl, hx⟩ | ⟨v, rfl, hx⟩ | ⟨v, rfl, hx⟩ | ⟨b, o, rfl, ho, hx⟩ |
    ⟨b, d, rfl, hd, hx⟩ | ⟨b, ⟨rfl, hn⟩ | ⟨rfl, hn⟩, -⟩ | ⟨hi, hx⟩
  · cases h
    rw [hx, State.setTemperature, ofInt_sext16]
    rfl
  · cases h
    exact hx
  · cases h
    exact hx
  · obtain rfl : _ = r := by simpa [Instr.written, ho] using h
    exact hx
  · obtain rfl : _ = r := by simpa [Instr.written, hd] using h
    exact hx
  · simp [Instr.written, hn] at h
  · simp [Instr.written, hn] at h
  · rw [Instr.written_noop hi] at h
    cases h
    exact hx

/-- A record whose payload is illegal has one payload byte, and raises `InvalidEnumValue` at its index in
every state. -/
theorem exec_of_not_written {i : Instr} {r : Record} (h : i.written r = none) :
    ∃ b, i.payload = [b] ∧
      ∀ s, exec i s = .next (s.raise .invalidEnumValue (s.cur + 1) b none) := by
  obtain ⟨b, ⟨rfl, hn⟩ | ⟨rfl, hn⟩⟩ := Instr.written_eq_none h
  · exact ⟨b, rfl, fun s => by simp [exec, execOcc, hn]⟩
  · exact ⟨b, rfl, fun s => by simp [exec, execExtd, hn]⟩

/-! ## What the host reads at the end of a decode -/

/-- The response that error `k` gives the host (60_exceptions.md R132 to R134); only `TruncatedPayload`
tells a size. -/
def ErrKind.told (index : Nat) (byte : Byte) (size : Nat) : ErrKind → DecodeError
  | .unrecognizedTag => .unrecognizedTag index byte
  | .truncatedPayload => .truncatedPayload index byte size
  | .invalidEnumValue => .invalidEnumValue index byte

@[simp] theorem State.raise_readErrKind (s : State) (k : ErrKind) (index : Nat) (byte : Byte)
    (z : Option Nat) : (s.raise k index byte z).readErrKind = .ok k := by
  cases k <;> rfl

@[simp] theorem State.raise_readErr (s : State) (k : ErrKind) (index : Nat) (byte : Byte)
    (z : Option Nat) : (s.raise k index byte z).readErr =
      .ok (k.told index byte (z.getD (Config.freeErrSize s.draws))) := by
  cases k <;> rfl

@[simp] theorem State.raise_response (s : State) (k : ErrKind) (index : Nat) (byte : Byte)
    (z : Option Nat) : (s.raise k index byte z).response =
      .ok (.error (k.told index byte (z.getD (Config.freeErrSize s.draws)))) := by
  cases k <;> rfl

theorem State.finish_response {s : State} {d : DecodedRecord} (h : s.record.decoded = .ok d) :
    s.finish.response = .ok (.ok d) := by
  simp [State.response, State.readRecord, h, Except.map]

/-- There is a response only when the decode is over (10_state.md R38). -/
theorem State.done_of_response {s : State} {r : Except DecodeError DecodedRecord}
    (h : s.response = .ok r) : s.status = .doneOk ∨ s.status = .doneErr := by
  cases hs : s.status
  case idle | busy => simp [State.response, hs] at h
  case doneOk => exact .inl rfl
  case doneErr => exact .inr rfl

section Decoded

variable {r : Record} {d : DecodedRecord} (h : r.decoded = .ok d)
include h

/-! Writing a field's register sets that field of what the host reads. -/

theorem Record.decoded_setTemperature (v : Half) :
    ({ r with temperature := some v } : Record).decoded =
      .ok { d with temperature := some (sext16 v) } := by
  obtain ⟨-, hc, hb, ho, hx⟩ := Record.decoded_ok h
  simp [Record.decoded, hc, hb, ho, hx]

theorem Record.decoded_setCo2 (v : Half) :
    ({ r with co2 := some v } : Record).decoded = .ok { d with co2 := some v.toNat } := by
  obtain ⟨ht, -, hb, ho, hx⟩ := Record.decoded_ok h
  simp [Record.decoded, ht, hb, ho, hx]

theorem Record.decoded_setBattery (v : Half) :
    ({ r with batteryMv := some v } : Record).decoded = .ok { d with batteryMv := some v.toNat } := by
  obtain ⟨ht, hc, -, ho, hx⟩ := Record.decoded_ok h
  simp [Record.decoded, ht, hc, ho, hx]

theorem Record.decoded_setOccupancy (o : Occupancy) :
    ({ r with occupancy := some o.code } : Record).decoded = .ok { d with occupancy := some o } := by
  obtain ⟨ht, hc, hb, -, hx⟩ := Record.decoded_ok h
  simp [Record.decoded, readOccupancyCode, ht, hc, hb, hx]

theorem Record.decoded_setContact (c : Bool) :
    ({ r with externalDigital := some c } : Record).decoded =
      .ok { d with externalDigital := some c } := by
  obtain ⟨ht, hc, hb, ho, -⟩ := Record.decoded_ok h
  simp [Record.decoded, ht, hc, hb, ho]

end Decoded

/-! ## One turn of `deserialize` -/

section Deserialize

variable {L : Layout} {input : List Byte} {cur : Nat} {d : DecodedRecord} {t : Byte} {e : Entry}

theorem deserializeFrom_end (fuel : Nat) (h : input[cur]? = none) :
    deserializeFrom L input (fuel + 1) cur d = some (.ok d) := by
  simp [deserializeFrom, h]

theorem deserializeFrom_unrecognized (fuel : Nat) (ht : input[cur]? = some t)
    (hl : L.lookup t = none) :
    deserializeFrom L input (fuel + 1) cur d = some (.error (.unrecognizedTag cur t)) := by
  simp [deserializeFrom, ht, hl]

theorem deserializeFrom_truncated (fuel : Nat) (ht : input[cur]? = some t) (hl : L.lookup t = some e)
    (hN : input.length ≤ cur + e.size) :
    deserializeFrom L input (fuel + 1) cur d = some (.error (.truncatedPayload cur t e.size)) := by
  simp [deserializeFrom, ht, hl, Nat.not_lt.2 hN]

theorem deserializeFrom_accepted (fuel : Nat) (ht : input[cur]? = some t) (hl : L.lookup t = some e)
    (hN : cur + e.size < input.length) {d' : DecodedRecord}
    (hd : decodeField e.dec input (cur + 1) d = some (.ok d')) :
    deserializeFrom L input (fuel + 1) cur d =
      deserializeFrom L input fuel (cur + e.size + 1) d' := by
  simp [deserializeFrom, ht, hl, hN, hd]

theorem deserializeFrom_illegal (fuel : Nat) (ht : input[cur]? = some t) (hl : L.lookup t = some e)
    (hN : cur + e.size < input.length) {err : DecodeError}
    (hd : decodeField e.dec input (cur + 1) d = some (.error err)) :
    deserializeFrom L input (fuel + 1) cur d = some (.error err) := by
  simp [deserializeFrom, ht, hl, hN, hd]

theorem decodeField_temp {q : Nat} {p0 p1 : Byte} (h0 : input[q]? = some p0)
    (h1 : input[q + 1]? = some p1) : decodeField .temp input q d =
      some (.ok { d with temperature := some (sext16 (be16 p0 p1)) }) := by
  simp [decodeField, h0, h1]

theorem decodeField_co2 {q : Nat} {p0 p1 : Byte} (h0 : input[q]? = some p0)
    (h1 : input[q + 1]? = some p1) : decodeField .co2 input q d =
      some (.ok { d with co2 := some (be16 p0 p1).toNat }) := by
  simp [decodeField, h0, h1, be16_toNat]

theorem decodeField_bat {q : Nat} {p0 p1 : Byte} (h0 : input[q]? = some p0)
    (h1 : input[q + 1]? = some p1) : decodeField .bat input q d =
      some (.ok { d with batteryMv := some (be16 p0 p1).toNat }) := by
  simp [decodeField, h0, h1, be16_toNat]

theorem decodeField_occ {q : Nat} {b : Byte} (hb : input[q]? = some b) :
    decodeField .occ input q d = some (match occupancyOf b with
      | some o => .ok { d with occupancy := some o }
      | none => .error (.invalidEnumValue q b)) := by
  cases ho : occupancyOf b <;> simp [decodeField, hb, ho]

theorem decodeField_extd {q : Nat} {b : Byte} (hb : input[q]? = some b) :
    decodeField .extd input q d = some (match contactOf b with
      | some c => .ok { d with externalDigital := some c }
      | none => .error (.invalidEnumValue q b)) := by
  cases hc : contactOf b <;> simp [decodeField, hb, hc]

/-- The document's field decoder and the record that the entry spells agree: both accept the payload and
set the same field, or both reject the same byte. -/
theorem decodeField_of_spell {p : List Byte} {i : Instr} {r : Record} {q : Nat}
    (h : e.spell p = .row i) (hp : ∀ k < p.length, input[q + k]? = p[k]?)
    (hr : r.decoded = .ok d) :
    (∃ r' d', i.written r = some r' ∧ r'.decoded = .ok d' ∧
        decodeField e.dec input q d = some (.ok d')) ∨
      (∃ b, i.payload = [b] ∧ i.written r = none ∧
        decodeField e.dec input q d = some (.error (.invalidEnumValue q b))) := by
  rcases Entry.spell_row_cases h with ⟨p0, p1, rfl, hi⟩ | ⟨b, rfl, hi⟩ | ⟨hd, hi⟩
  · have h0 : input[q]? = some p0 := hp 0 (by simp)
    have h1 : input[q + 1]? = some p1 := hp 1 (by simp)
    rcases hi with ⟨hd, rfl⟩ | ⟨hd, rfl⟩ | ⟨hd, rfl⟩ <;> rw [hd]
    · exact .inl ⟨_, _, rfl, Record.decoded_setTemperature hr _, decodeField_temp h0 h1⟩
    · exact .inl ⟨_, _, rfl, Record.decoded_setCo2 hr _, decodeField_co2 h0 h1⟩
    · exact .inl ⟨_, _, rfl, Record.decoded_setBattery hr _, decodeField_bat h0 h1⟩
  · have hb : input[q]? = some b := hp 0 (by simp)
    rcases hi with ⟨hd, rfl⟩ | ⟨hd, rfl⟩ <;> rw [hd]
    · rw [decodeField_occ hb, Instr.written]
      cases occupancyOf b with
      | some o => exact .inl ⟨_, _, rfl, Record.decoded_setOccupancy hr o, rfl⟩
      | none => exact .inr ⟨b, rfl, rfl, rfl⟩
    · rw [decodeField_extd hb, Instr.written]
      cases contactOf b with
      | some c => exact .inl ⟨_, _, rfl, Record.decoded_setContact hr c, rfl⟩
      | none => exact .inr ⟨b, rfl, rfl, rfl⟩
  · rw [hd]
    exact .inl ⟨r, d, Instr.written_noop hi r, hr, rfl⟩

end Deserialize

/-! ## The stepping machine refines `deserialize` -/

/-- The decode in progress in `s` stands where the document's walk over `bytes` stands with the record
`d` (40_dispatch.md R77). -/
structure State.Tracks (s : State) (bytes : List Byte) (d : DecodedRecord) : Prop where
  busy : s.status = .busy
  len : s.len = bytes.length
  reads : ∀ a, s.memRead a = bytes[a]?
  cursor : s.cur ≤ s.len
  record : s.record.decoded = .ok d

theorem State.latch_tracks (s : State) (bytes : List Byte) : (s.latch bytes).Tracks bytes .empty where
  busy := rfl
  len := rfl
  reads := State.memRead_latch s bytes
  cursor := Nat.zero_le _
  record := rfl

theorem State.Tracks.accept {s : State} {bytes : List Byte} {d d' : DecodedRecord}
    (h : s.Tracks bytes d) {r : Record} {n : Nat} (hr : r.decoded = .ok d')
    (hN : s.cur + n < s.len) : (s.accept r n).Tracks bytes d' where
  busy := h.busy
  len := h.len
  reads := h.reads
  cursor := hN
  record := hr

/-- The payload of a record that fits can be read, and is the bytes after the tag (20_memory.md R39). -/
theorem State.Tracks.readSpan {s : State} {bytes : List Byte} {d : DecodedRecord}
    (h : s.Tracks bytes d) {n : Nat} (hN : s.cur + n < s.len) :
    ∃ p, s.readSpan (s.cur + 1) n = some p ∧ p.length = n ∧
      ∀ k < p.length, bytes[s.cur + 1 + k]? = p[k]? := by
  have hlen : ((bytes.drop (s.cur + 1)).take n).length = n := by
    rw [List.length_take, List.length_drop, ← h.len]
    omega
  have hget : ∀ k < n, bytes[s.cur + 1 + k]? = ((bytes.drop (s.cur + 1)).take n)[k]? := fun k hk => by
    rw [List.getElem?_take_of_lt hk, List.getElem?_drop]
  refine ⟨(bytes.drop (s.cur + 1)).take n, ?_, hlen, fun k hk => hget k (hlen ▸ hk)⟩
  exact (State.readSpan_eq_some_iff _ _ _ _).2 ⟨hlen, fun k hk => (h.reads _).trans (hget k hk)⟩

/-- One step on a record that fits does what the document's field decoder does. -/
theorem State.Tracks.step_decodeField {s : State} {bytes : List Byte} {d : DecodedRecord}
    (h : s.Tracks bytes d) (hL : s.layout.admissible = true) {b : Byte} {e : Entry}
    (hb : s.memRead s.cur = some b) (hl : s.layout.lookup b = some e) (hN : s.cur + e.size < s.len) :
    (∃ r d', step s = .next (s.accept r e.size) ∧ r.decoded = .ok d' ∧
        decodeField e.dec bytes (s.cur + 1) d = some (.ok d')) ∨
      (∃ t err, step s = .next t ∧ t.response = .ok (.error err) ∧
        decodeField e.dec bytes (s.cur + 1) d = some (.error err)) := by
  obtain ⟨p, hread, hlen, hp⟩ := h.readSpan hN
  have hstep := step_fits h.busy hb hl hN hread
  rcases Entry.spell_cases hL (Layout.lookup_mem hl).1 hlen with
    ⟨hd, -⟩ | ⟨i, hsp, -, hpay, -, -⟩
  · rw [hd]
    exact .inl ⟨s.record, d, step_noop h.busy hb hl hN hd, h.record, rfl⟩
  · have hsize : i.size = e.size := by rw [Instr.size, hpay, hlen]
    simp only [hsp] at hstep
    rcases decodeField_of_spell hsp hp h.record with ⟨r, d', hw, hr, hf⟩ | ⟨c, hc, hw, hf⟩
    · exact .inl ⟨r, d', by rw [hstep, exec_of_written hw, hsize], hr, hf⟩
    · obtain ⟨c', hc', hx⟩ := exec_of_not_written hw
      obtain rfl : c = c' := by simpa [hc] using hc'
      exact .inr ⟨_, _, hstep.trans (hx s), State.raise_response _ _ _ _ _, hf⟩

/-- One step does what one turn of the document's walk does: both answer, or both go on with the same
record at the same later cursor. -/
theorem State.Tracks.turn {s : State} {bytes : List Byte} {d : DecodedRecord}
    (h : s.Tracks bytes d) (hL : s.layout.admissible = true) (fuel : Nat) :
    (∃ t r, step s = .next t ∧ t.response = .ok r ∧
        deserializeFrom s.layout bytes (fuel + 1) s.cur d = some r) ∨
      (∃ t d', step s = .next t ∧ t.Tracks bytes d' ∧ t.layout = s.layout ∧ s.cur < t.cur ∧
        deserializeFrom s.layout bytes (fuel + 1) s.cur d =
          deserializeFrom s.layout bytes fuel t.cur d') := by
  cases hb : s.memRead s.cur with
  | none =>
    have hend : bytes[s.cur]? = none := (h.reads s.cur).symm.trans hb
    have hc : s.len ≤ s.cur := h.len.trans_le (List.getElem?_eq_none_iff.1 hend)
    exact .inl ⟨_, _, step_exit h.busy hc, State.finish_response h.record,
      deserializeFrom_end fuel hend⟩
  | some b =>
    have hget : bytes[s.cur]? = some b := (h.reads s.cur).symm.trans hb
    cases hl : s.layout.lookup b with
    | none =>
      exact .inl ⟨_, _, step_unrecognized h.busy hb hl, State.raise_response _ _ _ _ _,
        deserializeFrom_unrecognized fuel hget hl⟩
    | some e =>
      by_cases hN : s.cur + e.size < s.len
      · rcases h.step_decodeField hL hb hl hN with ⟨r, d', hstep, hr, hf⟩ | ⟨t, err, hstep, ht, hf⟩
        · refine .inr ⟨_, d', hstep, h.accept hr hN, rfl, ?_,
            deserializeFrom_accepted fuel hget hl (h.len ▸ hN) hf⟩
          rw [State.accept_cur]
          omega
        · exact .inl ⟨t, _, hstep, ht, deserializeFrom_illegal fuel hget hl (h.len ▸ hN) hf⟩
      · have hN' : s.len ≤ s.cur + e.size := Nat.le_of_not_lt hN
        exact .inl ⟨_, _, step_truncated h.busy hb hl hN', State.raise_response _ _ _ _ _,
          deserializeFrom_truncated fuel hget hl (h.len ▸ hN')⟩

/-- With one turn for each byte ahead and one more, the run and the document's walk answer the same. -/
theorem State.Tracks.run {s : State} {bytes : List Byte} {d : DecodedRecord} {fuel : Nat}
    (h : s.Tracks bytes d) (hL : s.layout.admissible = true) (hfuel : s.len < s.cur + fuel) :
    ∃ t r, Sys2Proof.core.run fuel s = .next t ∧ t.response = .ok r ∧
      deserializeFrom s.layout bytes fuel s.cur d = some r := by
  induction fuel generalizing s d with
  | zero => exact absurd h.cursor (Nat.not_le.2 hfuel)
  | succ fuel ih =>
    rcases h.turn hL fuel with ⟨t, r, hstep, hr, hd⟩ | ⟨t, d', hstep, ht, hlayout, hlt, hd⟩
    · have hover : t.status ≠ .busy := by
        rcases State.done_of_response hr with hs | hs <;> simp [hs]
      exact ⟨t, r, by rw [core_run_succ, hstep]; exact core_run_hold hover fuel, hr, hd⟩
    · have hfuel' : t.len < t.cur + fuel := by
        rw [ht.len, ← h.len]
        omega
      obtain ⟨u, r, hrun, hr, hd'⟩ := ih ht (hlayout ▸ hL) hfuel'
      exact ⟨u, r, by rw [core_run_succ, hstep]; exact hrun, hr, by rw [hd, ← hlayout, hd']⟩

/-- Settles O55: a request starts the document's walk at index 0 with the empty record, and the machine
tracks it turn by turn. -/
theorem steppingRefinesDeserialize : Obligations.SteppingRefinesDeserialize := by
  intro s bytes hL
  obtain ⟨t, r, hrun, hr, hd⟩ :=
    (State.latch_tracks s bytes).run (fuel := bytes.length + 1) hL (by simp)
  exact ⟨t, r, hrun, State.done_of_response hr, hd, hr⟩

/-! ## Determinism -/

/-- The decodes in `s` and `s'` stand at the same place and the host reads the same error; the hidden
error registers and the draws may differ (40_dispatch.md R81). -/
structure State.Alike (s s' : State) : Prop where
  mem : s'.mem = s.mem
  len : s'.len = s.len
  cur : s'.cur = s.cur
  record : s'.record = s.record
  status : s'.status = s.status
  layout : s'.layout = s.layout
  readErr : s'.readErr = s.readErr

theorem State.latch_alike {s s' : State} (h : s.layout = s'.layout) (bytes : List Byte) :
    (s.latch bytes).Alike (s'.latch bytes) := ⟨rfl, rfl, rfl, rfl, rfl, h.symm, rfl⟩

section Alike

variable {s s' : State} (h : s.Alike s')
include h

theorem State.Alike.memRead (a : Nat) : s'.memRead a = s.memRead a := State.memRead_congr h.mem h.len a

theorem State.Alike.readSpan (a n : Nat) : s'.readSpan a n = s.readSpan a n := by
  induction n generalizing a with
  | zero => rfl
  | succ n ih => simp only [State.readSpan, h.memRead, ih]

theorem State.Alike.response : s'.response = s.response := by
  simp only [State.response, State.readRecord, h.status, h.record, h.readErr]

theorem State.Alike.finish : s.finish.Alike s'.finish :=
  ⟨h.mem, h.len, h.cur, h.record, rfl, h.layout, rfl⟩

theorem State.Alike.accept (r : Record) (n : Nat) :
    (s.accept r n).Alike (s'.accept r n) :=
  ⟨h.mem, h.len, by simp [h.cur], rfl, h.status, h.layout, h.readErr⟩

theorem State.Alike.advance (n : Nat) : (s.advance n).Alike (s'.advance n) :=
  ⟨h.mem, h.len, by simp [h.cur], h.record, h.status, h.layout, h.readErr⟩

/-- Errors that tell the host nothing of a free value are alike. -/
theorem State.Alike.raise {k : ErrKind} {z : Option Nat} (index : Nat) (byte : Byte)
    (hz : ∀ m n, k.told index byte (z.getD m) = k.told index byte (z.getD n)) :
    (s.raise k index byte z).Alike (s'.raise k index byte z) :=
  ⟨h.mem, h.len, h.cur, rfl, rfl, h.layout, by
    rw [State.raise_readErr, State.raise_readErr, hz]⟩

/-- A record's meaning keeps two decodes alike: what it writes depends on the record registers, and the
error it raises on the payload byte and the cursor. -/
theorem State.Alike.exec {i : Instr} {t : State} (hx : Machine.exec i s = .next t) :
    ∃ t', Machine.exec i s' = .next t' ∧ t.Alike t' := by
  cases hw : i.written s.record with
  | some r =>
    rw [exec_of_written hw] at hx
    cases hx
    exact ⟨_, exec_of_written (h.record ▸ hw), h.accept r i.size⟩
  | none =>
    obtain ⟨b, -, hraise⟩ := exec_of_not_written hw
    rw [hraise] at hx
    cases hx
    refine ⟨_, hraise s', ?_⟩
    rw [h.cur]
    exact h.raise _ b fun _ _ => rfl

/-- A step keeps two decodes alike. -/
theorem State.Alike.step {t : State} (hstep : Machine.step s = .next t) :
    ∃ t', Machine.step s' = .next t' ∧ t.Alike t' := by
  have hread : s'.memRead s'.cur = s.memRead s.cur := by rw [h.cur, h.memRead]
  have hlookup (b : Byte) : s'.layout.lookup b = s.layout.lookup b := by rw [h.layout]
  rcases step_cases hstep with ⟨hs, rfl⟩ | ⟨hs, hc, rfl⟩ | ⟨b, hs, hb, hl, rfl⟩ |
    ⟨b, e, hs, hb, hl, hN, rfl⟩ | ⟨b, e, hs, hb, hl, hN, hd, rfl⟩ |
    ⟨b, e, p, i, hs, hb, hl, hN, -, hp, hsp, hx⟩
  · exact ⟨s', step_not_busy (h.status ▸ hs), h⟩
  · exact ⟨s'.finish, step_exit (h.status.trans hs) (by rwa [h.len, h.cur]), h.finish⟩
  · refine ⟨_, step_unrecognized (h.status.trans hs) (hread.trans hb) ((hlookup b).trans hl), ?_⟩
    rw [State.raiseUnrecognized, State.raiseUnrecognized, h.cur]
    exact h.raise _ b fun _ _ => rfl
  · refine ⟨_, step_truncated (h.status.trans hs) (hread.trans hb) ((hlookup b).trans hl)
      (by rwa [h.len, h.cur]), ?_⟩
    rw [State.raiseTruncated, State.raiseTruncated, h.cur]
    exact h.raise _ b fun _ _ => rfl
  · exact ⟨_, step_noop (h.status.trans hs) (hread.trans hb) ((hlookup b).trans hl)
      (by rwa [h.len, h.cur]) hd, h.advance e.size⟩
  · obtain ⟨t', hx', ht⟩ := h.exec hx
    have hp' : s'.readSpan (s'.cur + 1) e.size = some p := by rw [h.readSpan, h.cur, hp]
    refine ⟨t', ?_, ht⟩
    rw [step_fits (h.status.trans hs) (hread.trans hb) ((hlookup b).trans hl)
      (by rwa [h.len, h.cur]) hp', hsp]
    exact hx'

end Alike

/-- A run keeps two decodes alike. -/
theorem State.Alike.run {s s' t : State} (h : s.Alike s') {k : Nat}
    (hrun : Sys2Proof.core.run k s = .next t) :
    ∃ t', Sys2Proof.core.run k s' = .next t' ∧ t.Alike t' := by
  induction k generalizing s s' with
  | zero =>
    cases hrun
    exact ⟨s', rfl, h⟩
  | succ k ih =>
    rw [core_run_succ] at hrun
    cases hstep : Machine.step s with
    | fault r => simp [hstep] at hrun
    | refused r => simp [hstep] at hrun
    | next u =>
      obtain ⟨u', hstep', hu⟩ := h.step hstep
      simp only [hstep] at hrun
      rw [core_run_succ, hstep']
      exact ih hu hrun

/-- Settles O57: two requests of one buffer under one table start alike, and what the host reads of alike
decodes is the same. -/
theorem responseDependsOnBufferAndTable : Obligations.ResponseDependsOnBufferAndTable := by
  intro s s' t bytes k hL hrun
  obtain ⟨t', hrun', ht⟩ := (State.latch_alike hL bytes).run hrun
  exact ⟨t', hrun', ht.status, ht.cur, ht.response⟩

/-! ## One step at a time -/

/-- A step on a record that fits accepts it, moving the cursor past tag and payload, or raises
`InvalidEnumValue` at the first payload byte (40_dispatch.md R75, R76). -/
theorem step_record_cases {s t : State} (hs : s.status = .busy) {b : Byte}
    (hb : s.memRead s.cur = some b) {e : Entry} (hl : s.layout.lookup b = some e)
    (hN : s.cur + e.size < s.len) (h : step s = .next t) :
    (t.status = .busy ∧ t.err = s.err ∧ t.draws = s.draws ∧ t.cur = s.cur + e.size + 1) ∨
      ∃ c, t = s.raise .invalidEnumValue (s.cur + 1) c none := by
  by_cases hd : e.dec = .noop
  · rw [step_noop hs hb hl hN hd] at h
    cases h
    exact .inl ⟨hs, rfl, rfl, rfl⟩
  · rw [step_record hs hb hl hN, State.fetchPayload_reads s hd] at h
    cases hp : s.readSpan (s.cur + 1) e.size with
    | none => simp [hp] at h
    | some p =>
      cases hsp : e.spell p with
      | otherNoop => exact absurd (Entry.spell_otherNoop hsp) hd
      | misfit => simp [hp, hsp] at h
      | row i =>
        obtain ⟨hpay, -, -, -⟩ := Entry.spell_row hsp
        have hsize : i.size = e.size := by rw [Instr.size, hpay, State.readSpan_length hp]
        simp only [hp, hsp] at h
        rcases exec_accepts_or_raises h with ⟨ht, herr, hdraws, hcur⟩ | ⟨c, -, ht⟩
        · exact .inl ⟨ht.trans hs, herr, hdraws, hsize ▸ hcur⟩
        · exact .inr ⟨c, ht⟩

/-- Settles O29: the three exits of a step at a known tag, and which of them are errors. -/
theorem boundsCheckIsStrict : Obligations.BoundsCheckIsStrict := by
  intro s b e hs hb hl
  have hc : s.cur < s.len := State.memRead_lt hb
  refine ⟨⟨fun hN k _ hk => hk.trans_lt hN, fun hall => ?allBelow⟩, fun hN => ?truncated,
    fun hN t hstep ht => ?fits⟩
  case allBelow =>
    rcases Nat.eq_zero_or_pos e.size with hz | hpos
    · rwa [hz]
    · exact hall _ (by omega) le_rfl
  case truncated =>
    exact ⟨_, step_truncated hs hb hl (Nat.le_of_not_lt hN), rfl, rfl, rfl, rfl, rfl, rfl, rfl, rfl⟩
  case fits =>
    rcases step_record_cases hs hb hl hN hstep with ⟨ht', -⟩ | ⟨c, rfl⟩
    · simp [ht'] at ht
    · exact State.raise_readErrKind _ _ _ _ _

/-- Settles O35: a step that stays in progress ran a record that fits and accepted it. -/
theorem acceptedRecordAdvancesTheCursor : Obligations.AcceptedRecordAdvancesTheCursor := by
  intro s t hs hstep ht
  rcases step_cases hstep with ⟨hn, -⟩ | ⟨-, -, rfl⟩ | ⟨b, -, -, -, rfl⟩ | ⟨b, e, -, -, -, -, rfl⟩ |
    ⟨b, e, -, hb, hl, hN, -, -⟩ | ⟨b, e, p, i, -, hb, hl, hN, -⟩
  · exact absurd hs hn
  · cases ht
  · cases ht
  · cases ht
  all_goals
    obtain ⟨-, herr, hdraws, hcur⟩ : t.status = .busy ∧ _ :=
      (step_record_cases hs hb hl hN hstep).resolve_right (by rintro ⟨c, rfl⟩; cases ht)
    exact ⟨b, e, hb, hl, hcur, by omega, by omega, herr, hdraws⟩

/-- Settles O27: the loop exit reads no byte, and leaves the accumulated record to the host. -/
theorem loopExitSucceeds : Obligations.LoopExitSucceeds := fun s hs hc =>
  ⟨step_exit hs hc, rfl, fun m => step_exit (s := { s with mem := m }) hs hc,
    fun _ hd => State.finish_response hd, fun hi => le_antisymm hi.cursor hc⟩

/-- Settles O28: the lookup's failure is the first check after the tag read, before any payload byte. -/
theorem unknownTagEndsTheDecode : Obligations.UnknownTagEndsTheDecode := by
  intro s b hs hb hl
  refine ⟨s.raiseUnrecognized b, step_unrecognized hs hb hl, rfl, rfl, rfl, rfl, rfl, rfl, rfl, rfl,
    rfl, rfl, rfl, fun hL => Layout.lookup_eq_none_iff.2 ?_⟩
  obtain ⟨-, -, -, -, -, -, -, -, -, h20, -⟩ := Layout.admissible_parts hL
  exact h20

/-- Settles O56: the first step after the request is the loop exit, with the empty record. -/
theorem emptyBufferSucceeds : Obligations.EmptyBufferSucceeds := fun s =>
  ⟨(s.latch []).finish, step_exit rfl le_rfl, rfl, State.finish_response rfl⟩

end Sys2Proof.Machine

/-!
PROOFS. The family of 41_field_decoders.md: SEXT16 (R86), the records that set a field, from the bytes in
the buffer to the next state (R87 to R91), the no-op entries (R92, R93), and which records can fail (R119).
-/

namespace Sys2Proof

open Machine

/-! ## The entries of an admissible table that the document fixes -/

/-- Tag 0x04 is a no-op entry, of size `L4` (41_field_decoders.md R93). -/
theorem Layout.lightSize_entry {L : Layout} (hL : L.admissible = true) {n : Nat}
    (h : L.lightSize = some n) : ∃ e ∈ L, e.id = 0x04 ∧ e.dec = .noop ∧ e.size = n := by
  obtain ⟨-, -, -, -, -, ⟨e, he, hid, hd⟩, -⟩ := Layout.admissible_parts hL
  have hl : L.lookup 0x04 = some e := hid ▸ Layout.lookup_admissible hL he
  rw [Layout.lightSize, hl] at h
  exact ⟨e, he, hid, hd, Option.some.inj h⟩

/-- The external-digital entry has the identifier `EXTD_TAG` and one payload byte (41_field_decoders.md
R91). -/
theorem Layout.extdTag_entry {L : Layout} (hL : L.admissible = true) :
    ⟨L.extdTag, 1, .extd⟩ ∈ L := by
  obtain ⟨-, -, -, -, -, -, ⟨⟨id, size, dec⟩, he, rfl, rfl⟩, -⟩ := Layout.admissible_parts hL
  rwa [Layout.extdTag_of_mem hL he rfl]

/-! ## The records without a legal payload -/

/-- Nothing is written for a record exactly when it is an enumeration with a payload byte outside its value
set (41_field_decoders.md R90, R91). -/
theorem Instr.written_eq_none_iff {i : Instr} {r : Record} :
    i.written r = none ↔
      ∃ b : Byte, (i = .occ b ∧ b.toNat ∉ [0, 1, 2]) ∨ (i = .extd b ∧ b.toNat ∉ [0, 1]) := by
  have hocc (b : Byte) : occupancyOf b = none ↔ b.toNat ∉ [0, 1, 2] := by
    rw [occupancyOf_eq_none_iff]
    simp only [List.mem_cons, List.not_mem_nil, or_false]
    omega
  have hextd (b : Byte) : contactOf b = none ↔ b.toNat ∉ [0, 1] := by
    rw [contactOf_eq_none_iff]
    simp only [List.mem_cons, List.not_mem_nil, or_false]
    omega
  constructor
  · intro h
    obtain ⟨b, hb⟩ := Instr.written_eq_none h
    exact ⟨b, by rwa [← hocc, ← hextd]⟩
  · rintro ⟨b, ⟨rfl, hb⟩ | ⟨rfl, hb⟩⟩
    · simp [Instr.written, (hocc b).2 hb]
    · simp [Instr.written, (hextd b).2 hb]

end Sys2Proof

namespace Sys2Proof.Machine

/-! ## SEXT16 -/

/-- The bits of SEXT16's output in a register of `W` bits are the sign-extended pattern. -/
theorem ofInt_sext16_eq_signExtend (v : Half) (W : Nat) :
    BitVec.ofInt W (sext16 v) = v.signExtend W := by
  rw [sext16_eq_toInt, BitVec.signExtend]

/-- The sign of a 16-bit operand is the top bit of its first byte (41_field_decoders.md R86). -/
theorem sext16_be16_neg_iff (hi lo : Byte) : sext16 (be16 hi lo) < 0 ↔ 128 ≤ hi.toNat := by
  have hlo := lo.isLt
  rw [sext16_eq_toInt, BitVec.toInt_neg_iff, be16_toNat]
  omega

/-- Settles O1: SEXT16 is the signed reading of the pattern, so its bits in a wider register are the
library's sign extension. -/
theorem sext16WidensTwosComplement : Obligations.Sext16WidensTwosComplement := by
  refine ⟨fun v => ⟨fun h => if_pos h, fun h => if_neg (by simp [h]), ?lower, ?upper,
    fun W hW k hk => ?bits, ofInt_sext16 v⟩, sext16_be16_neg_iff, by decide⟩
  case lower =>
    rw [sext16_eq_toInt]
    exact BitVec.le_toInt v
  case upper =>
    rw [sext16_eq_toInt]
    exact Int.le_sub_one_of_lt (BitVec.toInt_lt (x := v))
  case bits =>
    rw [ofInt_sext16_eq_signExtend, BitVec.getLsbD_signExtend, decide_eq_true hk, Bool.true_and,
      BitVec.msb_eq_getLsbD_last]

/-! ## Which records can fail -/

/-- In a decode in progress a record fails exactly when its payload byte is illegal. -/
theorem exec_fails_iff {i : Instr} {s : State} (hs : s.status = .busy) :
    (∃ t, exec i s = .next t ∧ t.status = .doneErr) ↔ i.written s.record = none := by
  cases hw : i.written s.record with
  | some r => simp [exec_of_written hw, State.accept, hs]
  | none =>
    obtain ⟨b, -, hx⟩ := exec_of_not_written hw
    simp [hx]

/-- In a decode in progress a record is accepted exactly when its payload is legal. -/
theorem exec_accepts_iff {i : Instr} {s : State} (hs : s.status = .busy) :
    (∃ t, exec i s = .next t ∧ t.status = .busy) ↔ i.written s.record ≠ none := by
  cases hw : i.written s.record with
  | some r => simp [exec_of_written hw, State.accept, hs]
  | none =>
    obtain ⟨b, -, hx⟩ := exec_of_not_written hw
    simp [hx]

/-- Settles O14: failing and staying in progress are complementary, and decided by the payload byte. -/
theorem onlyEnumRecordsFail : Obligations.OnlyEnumRecordsFail := by
  intro i s hs
  refine ⟨(exec_fails_iff hs).trans Instr.written_eq_none_iff, (exec_accepts_iff hs).trans ?_⟩
  rw [Ne, Instr.written_eq_none_iff]
  simp only [not_exists, not_or, not_and, not_not]

/-! ## A whole record at the cursor -/

/-- A span that starts with `b` has `b` at its first index and the rest after it. -/
theorem State.readSpan_cons {s : State} {a n : Nat} {b : Byte} {p : List Byte}
    (h : s.readSpan a (n + 1) = some (b :: p)) :
    s.memRead a = some b ∧ s.readSpan (a + 1) n = some p := by
  rw [State.readSpan_eq_some_iff] at h
  obtain ⟨hlen, hread⟩ := h
  refine ⟨hread 0 n.succ_pos,
    (State.readSpan_eq_some_iff _ _ _ _).2 ⟨by simpa using hlen, fun k hk => ?_⟩⟩
  rw [Nat.add_right_comm]
  exact hread (k + 1) (Nat.succ_lt_succ hk)

/-- A nonempty span that can be read ends within the buffer. -/
theorem State.lt_len_of_readSpan {s : State} {a n : Nat} {p : List Byte}
    (h : s.readSpan a (n + 1) = some p) : a + n < s.len := by
  rw [State.readSpan_eq_some_iff] at h
  obtain ⟨hlen, hread⟩ := h
  exact State.memRead_lt ((hread n n.lt_succ_self).trans (List.getElem?_eq_getElem (by omega)))

section WholeRecord

variable {s : State} (hs : s.status = .busy) (hL : s.layout.admissible = true) {e : Entry}
  (he : e ∈ s.layout)
include hs hL he

/-- At the tag of an entry without room for its payload, the step raises `TruncatedPayload` before the
decoder runs (40_dispatch.md R73). -/
theorem step_entry_truncated (ht : s.memRead s.cur = some e.id) (hN : s.len ≤ s.cur + e.size) :
    step s = .next (s.raise .truncatedPayload s.cur e.id (some e.size)) :=
  step_truncated hs ht (Layout.lookup_admissible hL he) hN

/-- A whole record of an entry of the table runs as the record the entry spells (40_dispatch.md R74). -/
theorem step_entry_row {p : List Byte} {i : Instr}
    (hp : s.readSpan s.cur (e.size + 1) = some (e.id :: p)) (hsp : e.spell p = .row i) :
    step s = exec i s := by
  obtain ⟨ht, hpay⟩ := State.readSpan_cons hp
  rw [step_fits hs ht (Layout.lookup_admissible hL he) (State.lt_len_of_readSpan hp) hpay, hsp]

/-- A whole record with a legal payload is accepted. -/
theorem step_entry_accepts {p : List Byte} {i : Instr} {r : Record}
    (hp : s.readSpan s.cur (e.size + 1) = some (e.id :: p)) (hsp : e.spell p = .row i)
    (hw : i.written s.record = some r) : step s = .next (s.accept r e.size) := by
  have hsize : i.size = e.size := by
    rw [Instr.size, (Entry.spell_row hsp).1, State.readSpan_length (State.readSpan_cons hp).2]
  rw [step_entry_row hs hL he hp hsp, exec_of_written hw, hsize]

/-- A whole record with an illegal payload byte raises `InvalidEnumValue` at that byte's index
(40_dispatch.md R75). -/
theorem step_entry_rejects {b : Byte} {i : Instr}
    (hp : s.readSpan s.cur (e.size + 1) = some [e.id, b]) (hsp : e.spell [b] = .row i)
    (hw : i.written s.record = none) :
    step s = .next (s.raise .invalidEnumValue (s.cur + 1) b none) := by
  obtain ⟨c, hc, hx⟩ := exec_of_not_written hw
  obtain rfl : b = c := by simpa [(Entry.spell_row hsp).1] using hc
  rw [step_entry_row hs hL he hp hsp, hx]

end WholeRecord

/-! ## The records that set a field -/

/-- Settles O19: a TEMP record is accepted, and the host reads the register as SEXT16 of its bits. -/
theorem tempRecordInTheBuffer : Obligations.TempRecordInTheBuffer := by
  intro s hs hL
  obtain ⟨-, he, -⟩ := Layout.admissible_parts hL
  refine ⟨fun p0 p1 hp => ⟨_, step_entry_accepts hs hL he hp rfl rfl, rfl, rfl, fun d hd => ?_⟩,
    step_entry_truncated hs hL he, by decide⟩
  have htemp : d.temperature = some (sext16 (be16 p0 p1)) := (Record.decoded_ok hd).1
  exact ⟨htemp, by simp [DecodedRecord.celsius, htemp]⟩

/-- Settles O20: a CO2 record is accepted, and the host reads the register as an unsigned number. -/
theorem co2RecordInTheBuffer : Obligations.Co2RecordInTheBuffer := by
  intro s hs hL
  obtain ⟨-, -, -, he, -⟩ := Layout.admissible_parts hL
  refine ⟨fun p0 p1 hp => ⟨_, step_entry_accepts hs hL he hp rfl rfl, rfl, rfl, fun d hd => ?_⟩,
    step_entry_truncated hs hL he⟩
  obtain ⟨-, hco2, -⟩ := Record.decoded_ok hd
  exact hco2.trans (congrArg some (be16_toNat p0 p1))

/-- Settles O21: a BAT record is accepted, and the host reads the register as an unsigned number. -/
theorem batteryRecordInTheBuffer : Obligations.BatteryRecordInTheBuffer := by
  intro s hs hL
  obtain ⟨-, -, -, -, he, -⟩ := Layout.admissible_parts hL
  refine ⟨fun p0 p1 hp => ⟨_, step_entry_accepts hs hL he hp rfl rfl, rfl, rfl, fun d hd => ?_⟩,
    step_entry_truncated hs hL he⟩
  obtain ⟨-, -, hbat, -⟩ := Record.decoded_ok hd
  have hmv : d.batteryMv = some (p0.toNat * 256 + p1.toNat) :=
    hbat.trans (congrArg some (be16_toNat p0 p1))
  exact ⟨hmv, by simp [DecodedRecord.volts, hmv]⟩

/-- The host reads the code of an occupancy state as that state (10_state.md R30). -/
theorem readOccupancyCode_code (o : Occupancy) : readOccupancyCode (some o.code) = .ok (some o) := by
  simp [readOccupancyCode]

/-- Settles O22: the three legal bytes select their states, and every other byte selects none. -/
theorem occupancyRecordInTheBuffer : Obligations.OccupancyRecordInTheBuffer := by
  intro s hs hL
  obtain ⟨-, -, he, -⟩ := Layout.admissible_parts hL
  refine ⟨fun b o hp hb => ?legal, fun b hp hb => ?illegal, step_entry_truncated hs hL he⟩
  case legal =>
    have ho : occupancyOf b = some o := by
      rcases hb with ⟨rfl, rfl⟩ | ⟨rfl, rfl⟩ | ⟨rfl, rfl⟩ <;> rfl
    have hw : (Instr.occ b).written s.record = some { s.record with occupancy := some o.code } := by
      simp [Instr.written, ho]
    refine ⟨_, step_entry_accepts hs hL he hp rfl hw, rfl, rfl, fun d hd => ?_⟩
    obtain ⟨-, -, -, hocc, -⟩ := Record.decoded_ok hd
    exact (Except.ok.inj ((readOccupancyCode_code o).symm.trans hocc)).symm
  case illegal =>
    have ho : occupancyOf b = none := (occupancyOf_eq_none_iff b).2 hb
    exact step_entry_rejects hs hL he hp rfl (by simp [Instr.written, ho])

/-- Settles O23: whatever identifier EXTD has, the two legal bytes are the contact's states, and every
other byte is none. -/
theorem contactRecordInTheBuffer : Obligations.ContactRecordInTheBuffer := by
  intro s hs hL
  have he := Layout.extdTag_entry hL
  refine ⟨fun b c hp hb => ?legal, fun b hp hb => ?illegal, step_entry_truncated hs hL he⟩
  case legal =>
    have hc : contactOf b = some c := by
      rcases hb with ⟨rfl, rfl⟩ | ⟨rfl, rfl⟩ <;> rfl
    have hw : (Instr.extd b).written s.record = some { s.record with externalDigital := some c } := by
      simp [Instr.written, hc]
    refine ⟨_, step_entry_accepts hs hL he hp rfl hw, rfl, rfl, fun d hd => ?_⟩
    obtain ⟨-, -, -, -, hext⟩ := Record.decoded_ok hd
    exact hext
  case illegal =>
    have hc : contactOf b = none := (contactOf_eq_none_iff b).2 hb
    exact step_entry_rejects hs hL he hp rfl (by simp [Instr.written, hc])

/-! ## The no-op entries -/

/-- Settles O24: the bounds check decides between the error and the advance; the decoder reads nothing. -/
theorem noopEntryConsumesItsSpan : Obligations.NoopEntryConsumesItsSpan := fun _ _ hs hL he hd ht =>
  ⟨fun hN => step_noop hs ht (Layout.lookup_admissible hL he) hN hd,
    step_entry_truncated hs hL he ht⟩

/-- Settles O25: tag 0x04 is a no-op entry of an admissible table, of size `L4`. -/
theorem lightRecordConsumesL4 : Obligations.LightRecordConsumesL4 := by
  intro s n hs hL hn ht
  obtain ⟨e, he, hid, hd, rfl⟩ := Layout.lightSize_entry hL hn
  rw [← hid] at ht ⊢
  exact noopEntryConsumesItsSpan s e hs hL he hd ht

end Sys2Proof.Machine

/-!
PROOFS. The family of 60_exceptions.md: the illegal payload byte of an enumeration (R134), and the hold
outside `BUSY` (R150).
-/

namespace Sys2Proof

open Machine

/-! ## The illegal payload byte of an enumeration -/

/-- An enumeration's entry and an illegal payload byte spell a record that writes nothing
(41_field_decoders.md R90, R91). -/
theorem Entry.spell_illegal {e : Entry} {b : Byte}
    (h : e.dec = .occ ∧ b.toNat ∉ [0, 1, 2] ∨ e.dec = .extd ∧ b.toNat ∉ [0, 1]) (r : Record) :
    ∃ i, e.spell [b] = .row i ∧ i.written r = none := by
  rcases h with ⟨hd, hb⟩ | ⟨hd, hb⟩
  · exact ⟨.occ b, by simp [Entry.spell, hd], Instr.written_eq_none_iff.2 ⟨b, .inl ⟨rfl, hb⟩⟩⟩
  · exact ⟨.extd b, by simp [Entry.spell, hd], Instr.written_eq_none_iff.2 ⟨b, .inr ⟨rfl, hb⟩⟩⟩

end Sys2Proof

namespace Sys2Proof.Machine

/-- At an enumeration's tag and an illegal payload byte the step raises `InvalidEnumValue` at that byte's
index, whether or not the table is admissible (60_exceptions.md R134). -/
theorem step_illegal_enum {s : State} {g b : Byte} {e : Entry} (hs : s.status = .busy)
    (hl : s.layout.lookup g = some e) (hsize : e.size = 1) (hp : s.readSpan s.cur 2 = some [g, b])
    (hd : e.dec = .occ ∧ b.toNat ∉ [0, 1, 2] ∨ e.dec = .extd ∧ b.toNat ∉ [0, 1]) :
    step s = .next (s.raise .invalidEnumValue (s.cur + 1) b none) := by
  obtain ⟨hg, hread⟩ := State.readSpan_cons hp
  have hN : s.cur + e.size < s.len := by simpa [hsize] using State.lt_len_of_readSpan hp
  have hpay : s.readSpan (s.cur + 1) e.size = some [b] := by rwa [hsize]
  obtain ⟨i, hsp, hw⟩ := Entry.spell_illegal hd s.record
  obtain ⟨c, hc, hx⟩ := exec_of_not_written hw
  obtain rfl : b = c := by simpa [(Entry.spell_row hsp).1] using hc
  rw [step_fits hs hg hl hN hpay, hsp]
  exact hx s

/-- Settles O30: the step raises the error at the payload byte, and the host reads it there. -/
theorem illegalEnumByteEndsTheDecode : Obligations.IllegalEnumByteEndsTheDecode := by
  intro s g b e hs hl hsize hp hd
  have hb : s.memRead (s.cur + 1) = some b :=
    (State.readSpan_cons (State.readSpan_cons hp).2).1
  exact ⟨_, step_illegal_enum hs hl hsize hp hd, rfl, rfl, rfl, rfl, rfl, rfl, rfl, rfl, hb,
    State.raise_response _ _ _ _ _, rfl⟩

/-! ## The hold outside `BUSY` -/

/-- Settles O37: none of the three statuses is `BUSY`, the only one in which a step acts and a request is
turned away. -/
theorem blockHoldsStateOutsideBusy : Obligations.BlockHoldsStateOutsideBusy := by
  intro s h
  have hs : s.status ≠ .busy := by
    rcases h with h | h | h <;> simp [h]
  exact ⟨step_not_busy hs, fun bytes ha =>
    ⟨s.latch bytes, request_admitted hs ha, State.latch_status s bytes⟩⟩

end Sys2Proof.Machine

/-!
PROOFS. The family of 70_reset_and_hazards.md: when a request is admitted and what it starts (R151), and
power-on reset (R152).
-/

namespace Sys2Proof.Machine

/-! ## What the host cannot read before a decode is over -/

theorem State.readRecord_of_status {s : State} (h : s.status ≠ .doneOk) :
    s.readRecord = .error .recordNotReadable := by
  cases hs : s.status
  case doneOk => exact absurd hs h
  all_goals simp [State.readRecord, hs]

/-- There is no response in `IDLE` and `BUSY` (10_state.md R38). -/
theorem State.response_of_status {s : State} (h : s.status = .idle ∨ s.status = .busy) :
    s.response = .error .recordNotReadable := by
  rcases h with h | h <;> simp [State.response, h]

/-! ## Requests -/

/-- `MAX_LEN` is the only bound on a buffer's length (92 D3); without one, every length is admitted. -/
theorem admitsLength_iff (n : Nat) :
    admitsLength n = true ↔ ∀ bound, Config.maxLen = some bound → n ≤ bound := by
  unfold admitsLength
  cases Config.maxLen <;> simp

theorem request_too_long {s : State} {bytes : List Byte} (hs : s.status ≠ .busy)
    (ha : admitsLength bytes.length = false) : s.request bytes = .refused .requestTooLong := by
  cases h : s.status
  case busy => exact absurd h hs
  all_goals simp [State.request, h, ha]

/-- Settles O40: an admitted request is the latch, and the two reasons to turn a request away are `BUSY`
and the length. -/
theorem requestStartsADecode : Obligations.RequestStartsADecode := by
  refine ⟨admitsLength_iff, fun s bytes hs ha => ?admitted, fun s bytes h => ?refused⟩
  case admitted =>
    exact ⟨s.latch bytes, request_admitted hs ha, rfl, rfl, rfl, rfl, rfl, s.memRead_latch bytes,
      s.latch_bufferFilled bytes, rfl, State.readErr_of_status (by simp),
      State.response_of_status (.inr rfl)⟩
  case refused =>
    by_cases hs : s.status = .busy
    · exact ⟨_, request_while_busy hs bytes⟩
    · exact ⟨_, request_too_long hs (h.resolve_left hs)⟩

/-! ## Power-on reset -/

/-- Settles O42: the state after reset is `IDLE`, and in `IDLE` neither record, error nor response is
readable. -/
theorem powerOnResetAbandonsTheDecode : Obligations.PowerOnResetAbandonsTheDecode := by
  intro s
  have hs : s.powerOnReset.status = .idle := rfl
  exact ⟨hs, rfl, rfl, s.powerOnReset_layout, State.readRecord_of_status (by rw [hs]; decide),
    State.readErr_of_status (by rw [hs]; decide), State.response_of_status (.inl hs)⟩

end Sys2Proof.Machine

/-!
PROOFS. The decoder and the encoder of 30_encoding.md: what the decoder answers on a byte stream, and the
round trip in both directions (R53, R65, R68).
-/

namespace Sys2Proof

open Machine

/-! ## What the decoder answers -/

/-- What the decoder answers at a whole record with tag `t` and `size` payload bytes, by what its entry
spells from them. -/
def Spelled.decoded (t : Byte) (size : Nat) (rest : List Byte) : Spelled → Decoded
  | .row i => .record i rest
  | .otherNoop => .skip t size rest
  | .misfit => .misfit t

section Decode

variable {L : Layout} {t : Byte} {e : Entry} {p rest : List Byte} (hl : L.lookup t = some e)
  (hp : p.length = e.size)
include hl hp

/-- A whole record decodes to what its entry spells from its payload, and leaves the bytes after it
(30_encoding.md R53, R65). -/
theorem decode_entry : decode L (t :: p ++ rest) = (e.spell p).decoded t e.size rest := by
  have hroom : e.size ≤ (p ++ rest).length := by simp [← hp]
  simp only [List.cons_append, decode, hl, if_pos hroom, List.take_left' hp, List.drop_left' hp]
  cases e.spell p <;> rfl

end Decode

/-- Everything a byte stream can start with: nothing, a byte that is no tag, a tag without room for its
payload, or a whole record. -/
theorem stream_cases (L : Layout) (bytes : List Byte) :
    bytes = [] ∨ (∃ t tail, bytes = t :: tail ∧ L.lookup t = none) ∨
      (∃ t e tail, bytes = t :: tail ∧ L.lookup t = some e ∧ tail.length < e.size) ∨
      (∃ t e p rest, bytes = t :: p ++ rest ∧ L.lookup t = some e ∧ p.length = e.size) := by
  match bytes with
  | [] => exact .inl rfl
  | t :: tail =>
    right
    cases hl : L.lookup t with
    | none => exact .inl ⟨t, tail, rfl, hl⟩
    | some e =>
      right
      by_cases hN : tail.length < e.size
      · exact .inl ⟨t, e, tail, rfl, hl, hN⟩
      · refine .inr ⟨t, e, tail.take e.size, tail.drop e.size, by simp, hl, ?_⟩
        rw [List.length_take]
        omega

theorem decode_unrecognized {L : Layout} {t : Byte} {tail : List Byte} (hl : L.lookup t = none) :
    decode L (t :: tail) = .unrecognizedTag t := by
  simp [decode, hl]

theorem decode_truncated {L : Layout} {t : Byte} {e : Entry} {tail : List Byte}
    (hl : L.lookup t = some e) (hN : tail.length < e.size) :
    decode L (t :: tail) = .truncated t e.size := by
  simp [decode, hl, Nat.not_le.2 hN]

/-- A decoded record was read from a whole record of the table that spells it. -/
theorem decode_record {L : Layout} {bytes rest : List Byte} {i : Instr}
    (h : decode L bytes = .record i rest) :
    ∃ t e p, bytes = t :: p ++ rest ∧ L.lookup t = some e ∧ p.length = e.size ∧ e.spell p = .row i := by
  rcases stream_cases L bytes with rfl | ⟨t, tail, rfl, hl⟩ | ⟨t, e, tail, rfl, hl, hN⟩ |
    ⟨t, e, p, rest', rfl, hl, hp⟩
  · cases h
  · rw [decode_unrecognized hl] at h
    cases h
  · rw [decode_truncated hl hN] at h
    cases h
  · rw [decode_entry hl hp] at h
    cases hsp : e.spell p <;> rw [hsp] at h <;> cases h
    exact ⟨t, e, p, rfl, hl, hp, hsp⟩

/-! ## The round trip -/

/-- Every well-formed record of an admissible table has the entry that spells it. -/
theorem Instr.hasEntry : ∀ i : Instr, Laws.HasEntry.Statement i
  | .temp v => Laws.HasEntry.temp v
  | .nop02 p => Laws.HasEntry.nop02 p
  | .nop03 p => Laws.HasEntry.nop03 p
  | .light p => Laws.HasEntry.light p
  | .occ b => Laws.HasEntry.occ b
  | .co2 v => Laws.HasEntry.co2 v
  | .bat v => Laws.HasEntry.bat v
  | .nop08 p => Laws.HasEntry.nop08 p
  | .nop09 p => Laws.HasEntry.nop09 p
  | .nop0A p => Laws.HasEntry.nop0A p
  | .nop0B p => Laws.HasEntry.nop0B p
  | .nop0C p => Laws.HasEntry.nop0C p
  | .extd b => Laws.HasEntry.extd b
  | .nop0E p => Laws.HasEntry.nop0E p
  | .nop0F p => Laws.HasEntry.nop0F p
  | .nop10 p => Laws.HasEntry.nop10 p
  | .nop11 p => Laws.HasEntry.nop11 p
  | .nop12 p => Laws.HasEntry.nop12 p
  | .nop13 p => Laws.HasEntry.nop13 p
  | .nop14 p => Laws.HasEntry.nop14 p
  | .nop15 p => Laws.HasEntry.nop15 p
  | .nop16 p => Laws.HasEntry.nop16 p
  | .nop17 p => Laws.HasEntry.nop17 p
  | .nop18 p => Laws.HasEntry.nop18 p
  | .nop19 p => Laws.HasEntry.nop19 p
  | .nop1A p => Laws.HasEntry.nop1A p
  | .nop1B p => Laws.HasEntry.nop1B p
  | .nop1C p => Laws.HasEntry.nop1C p
  | .nop3D p => Laws.HasEntry.nop3D p

end Sys2Proof

namespace Sys2Proof.Machine

/-- Settles O2: the entry of a well-formed record is what its tag looks up, and spells it from its
payload. -/
theorem decodeOfEncodeIsTheRecord : Obligations.DecodeOfEncodeIsTheRecord := by
  intro L i rest hL hw
  obtain ⟨e, he, hid, hsize, hsp⟩ := i.hasEntry L hL hw
  have hl : L.lookup (i.tag L) = some e := hid ▸ Layout.lookup_admissible hL he
  rw [encode, decode_entry hl hsize.symm, hsp, Spelled.decoded]

/-- Settles O3: what an entry of an admissible table spells is well formed, with that tag and payload. -/
theorem encodeOfDecodeIsTheBytes : Obligations.EncodeOfDecodeIsTheBytes := by
  intro L i bytes rest hL h
  obtain ⟨t, e, p, rfl, hl, hp, hsp⟩ := decode_record h
  obtain ⟨he, rfl⟩ := Layout.lookup_mem hl
  rcases Entry.spell_cases hL he hp with ⟨-, hother⟩ | ⟨j, hrow, hw, hpay, htag, -⟩
  · rw [hsp] at hother
    cases hother
  · obtain rfl : i = j := by simpa [hsp] using hrow
    exact ⟨hw, by rw [encode, hpay, htag]⟩

/-! ## The reference table -/

/-- Settles O7: the eleven constraints, checked on the table as it is written out. -/
theorem referenceLayoutIsAdmissible : Obligations.ReferenceLayoutIsAdmissible := by
  unfold Obligations.ReferenceLayoutIsAdmissible
  decide

/-- Settles O8: eight words, decoded under the table as it is written out. -/
theorem writtenOutWordsDecode : Obligations.WrittenOutWordsDecode := by
  unfold Obligations.WrittenOutWordsDecode
  decide

end Sys2Proof.Machine

/-!
PROOFS. The invariants of the state tuple (10_state.md R20, 20_memory.md R39): the reset state meets them,
every step and every move of the host keeps them, and in a sound state a decode goes on to its end
(40_dispatch.md R79, 70_reset_and_hazards.md R161).
-/

namespace Sys2Proof

open Machine

/-- No record writes occupancy code 3 (10_state.md R30). -/
theorem Instr.written_occupancy_ne_three {i : Instr} {r r' : Record} (h : i.written r = some r')
    (hr : r.occupancy ≠ some 3) : r'.occupancy ≠ some 3 := by
  cases i
  case occ b =>
    obtain ⟨o, -, rfl⟩ := Option.map_eq_some_iff.1 h
    simpa using occupancy_code_ne_three o
  case extd b =>
    obtain ⟨d, -, rfl⟩ := Option.map_eq_some_iff.1 h
    exact hr
  all_goals
    cases h
    exact hr

end Sys2Proof

namespace Sys2Proof.Machine

/-! ## A record's meaning and a run, taken apart -/

/-- A record's meaning accepts the record, or rejects its one payload byte in every state alike. -/
theorem exec_accepts_or_rejects {i : Instr} {s t : State} (hx : exec i s = .next t) :
    (∃ r, i.written s.record = some r ∧ t = s.accept r i.size) ∨
      (i.written s.record = none ∧ ∃ b, i.payload = [b] ∧
        t = s.raise .invalidEnumValue (s.cur + 1) b none ∧
        ∀ u, exec i u = .next (u.raise .invalidEnumValue (u.cur + 1) b none)) := by
  cases hw : i.written s.record with
  | some r =>
    rw [exec_of_written hw] at hx
    cases hx
    exact .inl ⟨r, rfl, rfl⟩
  | none =>
    obtain ⟨b, hb, hraise⟩ := exec_of_not_written hw
    rw [hraise] at hx
    cases hx
    exact .inr ⟨rfl, b, hb, rfl, hraise⟩

/-- A run of one more step that answers a next state made that step. -/
theorem core_run_succ_next {s t : State} {k : Nat} (h : Sys2Proof.core.run (k + 1) s = .next t) :
    ∃ u, step s = .next u ∧ Sys2Proof.core.run k u = .next t := by
  rw [core_run_succ] at h
  cases hstep : step s with
  | next u => exact ⟨u, rfl, by simpa only [hstep] using h⟩
  | fault f => simp [hstep] at h
  | refused r => simp [hstep] at h

/-- What every step keeps, a run keeps. -/
theorem core_run_keeps {P : State → Prop} (hP : ∀ s t, P s → step s = .next t → P t) {s t : State}
    {k : Nat} (hs : P s) (hrun : Sys2Proof.core.run k s = .next t) : P t := by
  induction k generalizing s with
  | zero =>
    cases hrun
    exact hs
  | succ k ih =>
    obtain ⟨u, hstep, hrest⟩ := core_run_succ_next hrun
    exact ih (hP s u hs hstep) hrest

/-! ## What the operations of a step keep -/

section Keeps

variable {s : State} (h : s.Inv)
include h

/-- An error whose byte stands at its index keeps the invariants. -/
theorem State.Inv.raise {index : Nat} {byte : Byte} (hb : s.memRead index = some byte) (k : ErrKind)
    (size : Option Nat) : (s.raise k index byte size).Inv where
  buffer := h.buffer
  cursor := h.cursor
  success := nofun
  occupancy := nofun
  errKind _ := errKind_code_ne_zero k
  errByte _ := hb
  discarded _ := rfl
  untouched := nofun
  layout := h.layout

/-- An accepted record that fits keeps the invariants. -/
theorem State.Inv.accept (hs : s.status = .busy) {r : Record} {n : Nat} (hN : s.cur + n < s.len)
    (hr : r.occupancy ≠ some 3) : (s.accept r n).Inv where
  buffer := h.buffer
  cursor := hN
  success ht := nomatch hs.symm.trans ht
  occupancy := hr
  errKind ht := nomatch hs.symm.trans ht
  errByte ht := nomatch hs.symm.trans ht
  discarded ht := nomatch hs.symm.trans ht
  untouched ht := nomatch hs.symm.trans ht
  layout := h.layout

/-- The loop exit keeps the invariants. -/
theorem State.Inv.finish (hc : s.len ≤ s.cur) : s.finish.Inv where
  buffer := h.buffer
  cursor := h.cursor
  success _ := le_antisymm h.cursor hc
  occupancy := h.occupancy
  errKind := nofun
  errByte := nofun
  discarded := nofun
  untouched := nofun
  layout := h.layout

/-- The meaning of a whole record at the cursor keeps the invariants: it accepts the record, or raises the
error at its one payload byte. -/
theorem State.Inv.exec (hs : s.status = .busy) {i : Instr} {t : State} (hN : s.cur + i.size < s.len)
    (hp : s.readSpan (s.cur + 1) i.size = some i.payload) (hx : Machine.exec i s = .next t) :
    t.Inv := by
  rcases exec_accepts_or_rejects hx with ⟨r, hw, rfl⟩ | ⟨-, b, hb, rfl, -⟩
  · exact h.accept hs hN (Instr.written_occupancy_ne_three hw h.occupancy)
  · rw [Instr.size, hb] at hp
    exact h.raise (State.readSpan_cons hp).1 _ _

end Keeps

/-- Settles O49: each thing a step can have done keeps the invariants. -/
theorem stepKeepsTheInvariants : Obligations.StepKeepsTheInvariants := by
  intro s t h hstep
  rcases step_cases hstep with ⟨-, rfl⟩ | ⟨-, hc, rfl⟩ | ⟨b, -, hb, -, rfl⟩ |
    ⟨b, e, -, hb, -, -, rfl⟩ | ⟨b, e, hs, -, -, hN, -, rfl⟩ | ⟨b, e, p, i, hs, -, -, hN, -, hp, hsp, hx⟩
  · exact h
  · exact h.finish hc
  · exact h.raise hb _ _
  · exact h.raise hb _ _
  · exact h.accept hs hN h.occupancy
  · have hpay : i.payload = p := (Entry.spell_row hsp).1
    have hsize : i.size = e.size := by rw [Instr.size, hpay, State.readSpan_length hp]
    exact h.exec hs (hsize ▸ hN) (by rwa [hsize, hpay]) hx

/-! ## Reset and the host's moves -/

/-- Power-on reset from a state with an admissible table meets the invariants. -/
theorem State.powerOnReset_inv {s : State} (hL : s.layout.admissible = true) : s.powerOnReset.Inv where
  buffer := rfl
  cursor := le_rfl
  success := nofun
  occupancy := nofun
  errKind := nofun
  errByte := nofun
  discarded := nofun
  untouched _ := rfl
  layout := hL

/-- A request under an admissible table meets the invariants. -/
theorem State.latch_inv {s : State} (hL : s.layout.admissible = true) (bytes : List Byte) :
    (s.latch bytes).Inv where
  buffer := s.latch_bufferFilled bytes
  cursor := Nat.zero_le _
  success := nofun
  occupancy := nofun
  errKind := nofun
  errByte := nofun
  discarded := nofun
  untouched := nofun
  layout := hL

/-- Settles O48: the reset state is what power-on reset makes of it, under the reference table. -/
theorem resetMeetsTheInvariants : Obligations.ResetMeetsTheInvariants :=
  State.powerOnReset_inv (s := State.reset) referenceLayoutIsAdmissible.1

/-- Settles O50: an admitted request is the latch, and both moves leave the table alone. -/
theorem hostMovesKeepTheInvariants : Obligations.HostMovesKeepTheInvariants := by
  refine ⟨fun s t bytes h hreq => ?_, fun s h => State.powerOnReset_inv h.layout⟩
  obtain ⟨-, -, rfl⟩ := request_cases hreq
  exact State.latch_inv h.layout bytes

/-- Settles O44: a filled buffer has a byte at each index below `N`, and no read answers at another. -/
theorem bufferReadsItsIndices : Obligations.BufferReadsItsIndices := fun _ h _ =>
  ⟨fun ⟨_, hb⟩ => State.memRead_lt hb, h.buffer.memRead⟩

/-! ## Progress -/

/-- Settles O51: the buffer holds the tag and the payload of a record that fits, and an entry of an
admissible table spells a record from it. -/
theorem soundStatesAlwaysStep : Obligations.SoundStatesAlwaysStep := by
  intro s h
  by_cases hs : s.status = .busy
  case neg => exact ⟨s, step_not_busy hs⟩
  by_cases hc : s.len ≤ s.cur
  case pos => exact ⟨_, step_exit hs hc⟩
  obtain ⟨b, hb⟩ := h.buffer.memRead (Nat.lt_of_not_le hc)
  cases hl : s.layout.lookup b with
  | none => exact ⟨_, step_unrecognized hs hb hl⟩
  | some e =>
    by_cases hN : s.cur + e.size < s.len
    case neg => exact ⟨_, step_truncated hs hb hl (Nat.le_of_not_lt hN)⟩
    obtain ⟨p, hp⟩ := h.buffer.readSpan (a := s.cur + 1) (n := e.size) (by omega)
    rcases Entry.spell_cases h.layout (Layout.lookup_mem hl).1 (State.readSpan_length hp) with
      ⟨hd, -⟩ | ⟨i, hsp, -⟩
    · exact ⟨_, step_noop hs hb hl hN hd⟩
    · obtain ⟨t, hx⟩ := exec_next i s
      exact ⟨t, by rw [step_fits hs hb hl hN hp, hsp]; exact hx⟩

/-- A decode in progress in a sound state ends when it is given one step for each byte ahead and one
more. -/
theorem State.Inv.run_ends {s : State} (h : s.Inv) {fuel : Nat} (hfuel : s.len < s.cur + fuel) :
    ∃ t, Sys2Proof.core.run fuel s = .next t ∧ t.status ≠ .busy := by
  induction fuel generalizing s with
  | zero => exact absurd h.cursor (Nat.not_le.2 hfuel)
  | succ fuel ih =>
    obtain ⟨t, hstep⟩ := soundStatesAlwaysStep s h
    by_cases ht : t.status = .busy
    · have hs : s.status = .busy := by
        by_contra hs
        rw [step_not_busy hs] at hstep
        cases hstep
        exact hs ht
      obtain ⟨-, -, -, -, -, hlt, -⟩ := acceptedRecordAdvancesTheCursor s t hs hstep ht
      obtain ⟨-, hlen, -⟩ := step_keeps_input hstep
      obtain ⟨u, hrun, hu⟩ := ih (stepKeepsTheInvariants s t h hstep) (by omega)
      exact ⟨u, by rw [core_run_succ, hstep]; exact hrun, hu⟩
    · exact ⟨t, by rw [core_run_succ, hstep]; exact core_run_hold ht fuel, ht⟩

/-- No step leads to `IDLE` from another status (10_state.md R24). -/
theorem step_ne_idle {s t : State} (hs : s.status ≠ .idle) (hstep : step s = .next t) :
    t.status ≠ .idle := by
  obtain ⟨hhold, hmove⟩ := statusTransitions.1 s t hstep
  by_cases hb : s.status = .busy
  · exact (hmove hb).1
  · rwa [hhold hb]

/-- Settles O54: one step for each byte ahead and one more, which is at most `N + 1`. -/
theorem decodeTerminates : Obligations.DecodeTerminates := by
  intro s h hs
  have hcur := h.cursor
  obtain ⟨t, hrun, ht⟩ := h.run_ends (fuel := s.len - s.cur + 1) (by omega)
  have hidle : t.status ≠ .idle :=
    core_run_keeps (P := fun u => u.status ≠ .idle) (fun _ _ => step_ne_idle) (by simp [hs]) hrun
  refine ⟨_, t, by omega, le_rfl, hrun, ?_⟩
  cases hst : t.status <;> simp_all

end Sys2Proof.Machine

/-!
PROOFS. The step and the decoder (40_dispatch.md R69 to R76): on the bytes ahead of the cursor a step does
what the decoder's answer says; and a decode succeeds exactly on a concatenation of legal records
(30_encoding.md R66).
-/

namespace Sys2Proof

open Machine

/-- A table with an entry that misfits its decoder is not admissible (30_encoding.md R57). -/
theorem Layout.not_admissible_of_misfit {L : Layout} {t : Byte} {e : Entry} {p : List Byte}
    (hl : L.lookup t = some e) (hp : p.length = e.size) (hsp : e.spell p = .misfit) :
    L.admissible = false := by
  by_contra hL
  rcases Entry.spell_cases (by simpa using hL) (Layout.lookup_mem hl).1 hp with ⟨-, h⟩ | ⟨i, h, -⟩ <;>
    simp [hsp] at h

end Sys2Proof

namespace Sys2Proof.Machine

/-! ## The bytes ahead of the cursor, and the step -/

/-- What can be read from the cursor to the end of the buffer is ahead of the cursor. -/
theorem State.ahead_of_readSpan {s : State} {bytes : List Byte} (hc : s.cur ≤ s.len)
    (h : s.readSpan s.cur (s.len - s.cur) = some bytes) : s.ahead bytes := by
  rw [State.readSpan_eq_some_iff] at h
  obtain ⟨hlen, hread⟩ := h
  refine ⟨by omega, fun k => ?_⟩
  by_cases hk : k < s.len - s.cur
  · exact hread k hk
  · rw [List.getElem?_eq_none (by omega), State.memRead, if_neg (by omega)]

/-- A nonempty stream is read from a cursor before the end of the buffer. -/
theorem State.ahead_of_readSpan_cons {s : State} {t : Byte} {tail : List Byte}
    (h : s.readSpan s.cur (s.len - s.cur) = some (t :: tail)) : s.ahead (t :: tail) := by
  have hlen := State.readSpan_length h
  rw [List.length_cons] at hlen
  exact State.ahead_of_readSpan (by omega) h

section Ahead

variable {s : State} {t : Byte} {p rest : List Byte}

/-- The payload of the record at the cursor can be read. -/
theorem State.ahead.payload (h : s.ahead (t :: p ++ rest)) :
    s.readSpan (s.cur + 1) p.length = some p := by
  obtain ⟨-, hread⟩ := h
  refine (State.readSpan_eq_some_iff _ _ _ _).2 ⟨rfl, fun k hk => ?_⟩
  rw [Nat.add_assoc, Nat.add_comm 1 k, hread, List.cons_append, List.getElem?_cons_succ,
    List.getElem?_append_left hk]

variable (hs : s.status = .busy) {e : Entry} (hl : s.layout.lookup t = some e)
include hs hl

/-- A whole record ahead that its entry spells runs as that record. -/
theorem State.ahead.step_row (h : s.ahead (t :: p ++ rest)) (hp : p.length = e.size) {i : Instr}
    (hsp : e.spell p = .row i) : step s = exec i s := by
  obtain ⟨ht, hN⟩ := h.tag
  rw [step_fits hs ht hl (hp ▸ hN) (hp ▸ h.payload), hsp]

/-- A whole record ahead without a row in the table of records is skipped (41_field_decoders.md R92). -/
theorem State.ahead.step_otherNoop (h : s.ahead (t :: p ++ rest)) (hp : p.length = e.size)
    (hsp : e.spell p = .otherNoop) : step s = .next (s.advance e.size) := by
  obtain ⟨ht, hN⟩ := h.tag
  exact step_noop hs ht hl (hp ▸ hN) (Entry.spell_otherNoop hsp)

/-- A whole record ahead that misfits its decoder is refused. -/
theorem State.ahead.step_misfit (h : s.ahead (t :: p ++ rest)) (hp : p.length = e.size)
    (hsp : e.spell p = .misfit) : step s = .refused (.inadmissibleEntry t) := by
  obtain ⟨ht, hN⟩ := h.tag
  rw [step_fits hs ht hl (hp ▸ hN) (hp ▸ h.payload), hsp]

/-- A tag ahead without room for its payload is truncated. -/
theorem State.ahead.step_truncated {tail : List Byte} (h : s.ahead (t :: tail))
    (hN : tail.length < e.size) : step s = .next (s.raiseTruncated t e.size) := by
  obtain ⟨hlen, hread⟩ := h
  rw [List.length_cons] at hlen
  exact Machine.step_truncated hs (hread 0) hl (by omega)

end Ahead

/-- Settles O16: the record was read from a whole record ahead of the cursor. -/
theorem stepRunsTheDecodedRecord : Obligations.StepRunsTheDecodedRecord := by
  intro s bytes rest i hs hread hd
  obtain ⟨t, e, p, rfl, hl, hp, hsp⟩ := decode_record hd
  exact (State.ahead_of_readSpan_cons hread).step_row hs hl hp hsp

/-- Settles O18: the four things a stream can start with, each with the decoder's answer and the step. -/
theorem stepFollowsTheDecoder : Obligations.StepFollowsTheDecoder := by
  intro s bytes hs hread
  rcases stream_cases s.layout bytes with rfl | ⟨t, tail, rfl, hl⟩ | ⟨t, e, tail, rfl, hl, hN⟩ |
    ⟨t, e, p, rest, rfl, hl, hp⟩
  · have hc : s.len ≤ s.cur := Nat.sub_eq_zero_iff_le.1 (State.readSpan_length hread).symm
    exact ⟨fun _ => step_exit hs hc, nofun, nofun, nofun, nofun⟩
  · have ha := State.ahead_of_readSpan_cons hread
    rw [decode_unrecognized hl]
    refine ⟨nofun, fun u hu => ?_, nofun, nofun, nofun⟩
    cases hu
    exact step_unrecognized hs (ha.2 0) hl
  · have ha := State.ahead_of_readSpan_cons hread
    rw [decode_truncated hl hN]
    refine ⟨nofun, nofun, fun u n hu => ?_, nofun, nofun⟩
    cases hu
    exact ha.step_truncated hs hl hN
  · have ha : s.ahead (t :: p ++ rest) := State.ahead_of_readSpan_cons hread
    rw [decode_entry hl hp]
    cases hsp : e.spell p with
    | row i => exact ⟨nofun, nofun, nofun, nofun, nofun⟩
    | otherNoop =>
      refine ⟨nofun, nofun, nofun, fun u n rest' hu => ?_, nofun⟩
      cases hu
      exact ha.step_otherNoop hs hl hp hsp
    | misfit =>
      refine ⟨nofun, nofun, nofun, nofun, fun u hu => ?_⟩
      cases hu
      exact ⟨ha.step_misfit hs hl hp hsp, Layout.not_admissible_of_misfit hl hp hsp⟩

/-- Settles O17: the request puts the word's bytes ahead of the cursor. -/
theorem tableWordRunsAsItsRecord : Obligations.TableWordRunsAsItsRecord := by
  intro s nbits w i hL hw
  obtain ⟨rest, hd⟩ : ∃ rest, decode layoutRef (tableBytes nbits w) = .record i rest := by
    rw [decodeTableWord] at hw
    split at hw <;> cases hw
    exact ⟨_, ‹_›⟩
  obtain ⟨t, e, p, hbytes, hl, hp, hsp⟩ := decode_record hd
  have ha : (s.withFetchWord nbits w).ahead (t :: p ++ rest) := hbytes ▸ s.latch_ahead _
  exact ha.step_row rfl (hL ▸ hl) hp hsp

/-! ## Success -/

/-- The payload of a record of entry `e` is legal (30_encoding.md R62). -/
def LegalPayload (e : Entry) (p : List Byte) : Prop :=
  (e.dec = .occ → ∀ b ∈ p, b.toNat ≤ 2) ∧ (e.dec = .extd → ∀ b ∈ p, b.toNat ≤ 1)

/-- A whole record is legal exactly when its payload is. -/
theorem isLegalRecord_cons {L : Layout} {t : Byte} {e : Entry} {p : List Byte}
    (hl : L.lookup t = some e) (hp : p.length = e.size) :
    IsLegalRecord L (t :: p) ↔ LegalPayload e p := by
  constructor
  · rintro ⟨e', ⟨t', p', hc, hl', -⟩, hlegal⟩
    cases hc
    obtain rfl : e' = e := by simpa [hl] using hl'.symm
    exact hlegal
  · exact fun h => ⟨e, ⟨t, p, rfl, hl, hp⟩, h⟩

/-- A record's payload is legal exactly when the record is accepted (41_field_decoders.md R119). -/
theorem legalPayload_iff_written {e : Entry} {p : List Byte} {i : Instr} (h : e.spell p = .row i)
    (r : Record) : LegalPayload e p ↔ i.written r ≠ none := by
  rw [Ne, Instr.written_eq_none_iff, LegalPayload]
  rcases Entry.spell_row_cases h with ⟨p0, p1, -, hi⟩ | ⟨b, rfl, ⟨hd, rfl⟩ | ⟨hd, rfl⟩⟩ | ⟨hd, hi⟩
  · rcases hi with ⟨hd, rfl⟩ | ⟨hd, rfl⟩ | ⟨hd, rfl⟩ <;> simp [hd]
  · simp [hd]
    omega
  · simp [hd]
    omega
  · have hocc : ∀ b, i ≠ .occ b := by rintro b rfl; cases hi
    have hextd : ∀ b, i ≠ .extd b := by rintro b rfl; cases hi
    simp [hd, hocc, hextd]

/-- A step at a whole record accepts it when it is legal and ends the decode otherwise. -/
theorem State.ahead.step_record {s : State} {t : Byte} {p rest : List Byte} {e : Entry}
    (h : s.ahead (t :: p ++ rest)) (hs : s.status = .busy) (hL : s.layout.admissible = true)
    (hl : s.layout.lookup t = some e) (hp : p.length = e.size) :
    (LegalPayload e p ∧ ∃ r, step s = .next (s.accept r p.length)) ∨
      (¬ LegalPayload e p ∧ ∃ u, step s = .next u ∧ u.status = .doneErr) := by
  rcases Entry.spell_cases hL (Layout.lookup_mem hl).1 hp with ⟨hd, hsp⟩ | ⟨i, hsp, -, hpay, -, -⟩
  · exact .inl ⟨by simp [LegalPayload, hd], s.record, hp ▸ h.step_otherNoop hs hl hp hsp⟩
  · rw [legalPayload_iff_written hsp s.record, h.step_row hs hl hp hsp]
    cases hw : i.written s.record with
    | some r => exact .inl ⟨by simp, r, by rw [exec_of_written hw, Instr.size, hpay]⟩
    | none =>
      obtain ⟨b, -, hx⟩ := exec_of_not_written hw
      exact .inr ⟨by simp, _, hx s, rfl⟩

/-- A decode that is over in `DONE_ERR` does not come to success. -/
theorem core_run_doneErr {s t u : State} {k : Nat} (hstep : step s = .next u)
    (hu : u.status = .doneErr) (hrun : Sys2Proof.core.run (k + 1) s = .next t) : t.status = .doneErr := by
  obtain ⟨v, hv, hrest⟩ := core_run_succ_next hrun
  cases hstep.symm.trans hv
  rw [core_run_hold (by simp [hu])] at hrest
  cases hrest
  exact hu

/-- A decode in progress that comes to success has a concatenation of legal records ahead. -/
theorem State.ahead.legal_of_success {s t : State} {bytes : List Byte} {fuel : Nat}
    (h : s.ahead bytes) (hs : s.status = .busy) (hL : s.layout.admissible = true)
    (hrun : Sys2Proof.core.run fuel s = .next t) (ht : t.status = .doneOk) :
    ∃ cs : List (List Byte), (∀ c ∈ cs, IsLegalRecord s.layout c) ∧ bytes = cs.flatten := by
  induction fuel generalizing s bytes with
  | zero =>
    cases hrun
    simp [hs] at ht
  | succ fuel ih =>
    rcases stream_cases s.layout bytes with rfl | ⟨b, tail, rfl, hl⟩ | ⟨b, e, tail, rfl, hl, hN⟩ |
      ⟨b, e, p, rest, rfl, hl, hp⟩
    · exact ⟨[], by simp, rfl⟩
    · exact absurd (core_run_doneErr (step_unrecognized hs (h.2 0) hl) rfl hrun) (by simp [ht])
    · exact absurd (core_run_doneErr (h.step_truncated hs hl hN) rfl hrun) (by simp [ht])
    · rcases h.step_record hs hL hl hp with ⟨hlegal, r, hstep⟩ | ⟨-, u, hstep, hu⟩
      · rw [core_run_succ, hstep] at hrun
        obtain ⟨cs, hcs, rfl⟩ := ih (s := s.accept r p.length) h.advance hs hL hrun
        refine ⟨(b :: p) :: cs, fun c hc => ?_, rfl⟩
        rcases List.mem_cons.1 hc with rfl | hc
        · exact (isLegalRecord_cons hl hp).2 hlegal
        · exact hcs c hc
      · exact absurd (core_run_doneErr hstep hu hrun) (by simp [ht])

/-- With only legal records ahead a decode in progress comes to success; one step for each byte ahead and
one more suffice. -/
theorem State.ahead.success_of_legal {s : State} {cs : List (List Byte)} {fuel : Nat}
    (h : s.ahead cs.flatten) (hs : s.status = .busy) (hL : s.layout.admissible = true)
    (hcs : ∀ c ∈ cs, IsLegalRecord s.layout c) (hfuel : cs.flatten.length < fuel) :
    ∃ t, Sys2Proof.core.run fuel s = .next t ∧ t.status = .doneOk := by
  induction cs generalizing s fuel with
  | nil =>
    obtain ⟨k, rfl⟩ := Nat.exists_eq_add_one_of_ne_zero (Nat.ne_zero_of_lt hfuel)
    rw [core_run_succ, step_exit hs h.1.le]
    exact ⟨s.finish, core_run_hold (by simp) k, rfl⟩
  | cons c cs ih =>
    obtain ⟨k, rfl⟩ := Nat.exists_eq_add_one_of_ne_zero (Nat.ne_zero_of_lt hfuel)
    obtain ⟨e, ⟨b, p, rfl, hl, hp⟩, hlegal⟩ := hcs c List.mem_cons_self
    rw [List.flatten_cons] at h hfuel
    rcases h.step_record hs hL hl hp with ⟨-, r, hstep⟩ | ⟨hillegal, -⟩
    · rw [core_run_succ, hstep]
      refine ih (s := s.accept r p.length) h.advance hs hL
        (fun c hc => hcs c (List.mem_cons_of_mem _ hc)) ?_
      simp only [List.length_append, List.length_cons] at hfuel
      omega
    · exact absurd hlegal hillegal

/-- Among the decodes that are over, the response is a record exactly in `DONE_OK`. -/
theorem State.response_isRecord_iff {t : State} {r : Except DecodeError DecodedRecord}
    (h : t.response = .ok r) : (∃ d, t.response = .ok (.ok d)) ↔ t.status = .doneOk := by
  constructor
  · rintro ⟨d, hd⟩
    rcases State.done_of_response hd with hs | hs
    · exact hs
    · cases herr : t.readErr <;> simp [State.response, hs, herr, Except.map] at hd
  · intro hs
    cases hrec : t.readRecord with
    | error f => simp [State.response, hs, hrec, Except.map] at h
    | ok d => exact ⟨d, by simp [State.response, hs, hrec, Except.map]⟩

/-- Settles O58: `N + 1` steps end the decode, and they end it in `DONE_OK` exactly on legal records. -/
theorem successIsConcatenationOfLegalRecords : Obligations.SuccessIsConcatenationOfLegalRecords := by
  intro s bytes hL
  have ha := s.latch_ahead bytes
  obtain ⟨t, r, hrun, -, -, hr⟩ := steppingRefinesDeserialize s bytes hL
  constructor
  · rintro ⟨u, d, hrun', hd⟩
    exact ha.legal_of_success rfl hL hrun' ((State.response_isRecord_iff hd).1 ⟨d, hd⟩)
  · rintro ⟨cs, hcs, rfl⟩
    obtain ⟨u, hrun', hu⟩ := ha.success_of_legal rfl hL hcs (Nat.lt_succ_self _)
    obtain rfl : t = u := Host.Outcome.next.inj (hrun.symm.trans hrun')
    obtain ⟨d, hd⟩ := (State.response_isRecord_iff hr).2 hu
    exact ⟨t, d, hrun, hd⟩

end Sys2Proof.Machine

/-!
PROOFS. The lines of a stream (30_encoding.md R67, R68): each assembles to one whole record and comes back
by name; and the tags a table leaves illegal (R61).
-/

namespace Sys2Proof.Machine

/-! ## The lines of a stream -/

/-- The table's entry that a line assembles to, with the line's payload bytes: reading them back gives the
line spelled by name. -/
def Line.Spells (L : Layout) (line : Line) (e : Entry) (p : List Byte) : Prop :=
  e ∈ L ∧ line.bytes L = e.id :: p ∧ p.length = e.size ∧ lineOf e p = some line.byName

/-- A signed 16-bit value comes back from its pattern. -/
theorem sext16_ofInt {v : Int} (hlo : -32768 ≤ v) (hhi : v ≤ 32767) :
    sext16 (BitVec.ofInt 16 v) = v := by
  rw [sext16_eq_toInt]
  exact BitVec.toInt_ofInt_eq_self (by decide) hlo (by omega)

/-- Every line in range but `RAW` is a record of the table (30_encoding.md R68). -/
theorem Line.spells_of_inRange {L : Layout} (hL : L.admissible = true) {line : Line}
    (hrec : line.isRecord = true) (hr : line.inRange L = true) : ∃ e p, line.Spells L e p := by
  obtain ⟨-, htemp, hocc, hco2, hbat, -⟩ := Layout.admissible_parts hL
  have hextd := Layout.extdTag_entry hL
  cases line with
  | temp v =>
    simp only [Line.inRange, Bool.and_eq_true, decide_eq_true_eq] at hr
    refine ⟨_, _, htemp, rfl, rfl, ?_⟩
    simp [lineOf, beBytes, Line.byName, be16_high_low, sext16_ofInt hr.1 hr.2]
  | co2 v =>
    simp only [Line.inRange, decide_eq_true_eq] at hr
    refine ⟨_, _, hco2, rfl, rfl, ?_⟩
    simp [lineOf, beBytes, Line.byName, be16_high_low, Nat.mod_eq_of_lt (Nat.lt_succ_of_le hr)]
  | bat v =>
    simp only [Line.inRange, decide_eq_true_eq] at hr
    refine ⟨_, _, hbat, rfl, rfl, ?_⟩
    simp [lineOf, beBytes, Line.byName, be16_high_low, Nat.mod_eq_of_lt (Nat.lt_succ_of_le hr)]
  | occ o => exact ⟨_, _, hocc, rfl, rfl, by cases o <;> rfl⟩
  | occRaw b => exact ⟨_, _, hocc, rfl, rfl, rfl⟩
  | extd d => exact ⟨_, _, hextd, rfl, rfl, by cases d <;> rfl⟩
  | extdRaw b => exact ⟨_, _, hextd, rfl, rfl, rfl⟩
  | light p => exact ⟨⟨0x04, p.length, .noop⟩, p, by simpa [Line.inRange] using hr, rfl, rfl, rfl⟩
  | nop id p =>
    simp only [Line.inRange, Bool.and_eq_true, decide_eq_true_eq, List.contains_iff_mem] at hr
    obtain ⟨hid, he⟩ := hr
    exact ⟨⟨id, p.length, .noop⟩, p, he, rfl, rfl, congrArg some (if_neg hid)⟩
  | raw bytes => cases hrec

/-- A stream of lines disassembles to the lines by name, record by record. -/
theorem disassembleFrom_assemble {L : Layout} (hL : L.admissible = true) {lines : List Line}
    (h : ∀ line ∈ lines, line.isRecord = true ∧ line.inRange L = true) {fuel : Nat}
    (hfuel : (assemble L lines).length ≤ fuel) :
    disassembleFrom L fuel (assemble L lines) = some (lines.map Line.byName) := by
  induction lines generalizing fuel with
  | nil => cases fuel <;> rfl
  | cons line lines ih =>
    obtain ⟨hrec, hr⟩ := h line List.mem_cons_self
    obtain ⟨e, p, he, hbytes, hp, hline⟩ := Line.spells_of_inRange hL hrec hr
    have hcons : assemble L (line :: lines) = e.id :: (p ++ assemble L lines) := by
      rw [assemble, List.map_cons, List.flatten_cons, hbytes]
      rfl
    rw [hcons] at hfuel ⊢
    obtain ⟨k, rfl⟩ := Nat.exists_eq_add_one_of_ne_zero (Nat.ne_zero_of_lt hfuel)
    have hrest := ih (fun l hl => h l (List.mem_cons_of_mem _ hl)) (fuel := k) (by
      simp only [List.length_cons, List.length_append] at hfuel
      omega)
    simp [disassembleFrom, Layout.lookup_admissible hL he, ← hp, hline, hrest]

/-- Settles O4: each line is read back from its entry and payload, and a line in named form is its own
named form. -/
theorem streamNotationIsOneToOne : Obligations.StreamNotationIsOneToOne := by
  intro L hL
  have hback : ∀ lines : List Line, (∀ line ∈ lines, line.isRecord = true ∧ line.inRange L = true) →
      disassemble L (assemble L lines) = some (lines.map Line.byName) :=
    fun _ h => disassembleFrom_assemble hL h le_rfl
  refine ⟨fun line hrec hr => ?_, hback, fun lines h => ?_⟩
  · obtain ⟨e, p, he, hbytes, hp, -⟩ := Line.spells_of_inRange hL hrec hr
    exact ⟨e, e.id, p, hbytes, Layout.lookup_admissible hL he, hp⟩
  · have hself : lines.map Line.byName = lines.map id := List.map_congr_left fun line hl => by
      obtain ⟨-, -, hnamed⟩ := h line hl
      exact (Line.byName_eq_self_iff line).2 hnamed
    rw [hback lines fun line hl => ⟨(h line hl).1, (h line hl).2.1⟩, hself, List.map_id]

end Sys2Proof.Machine

namespace Sys2Proof

/-! ## The illegal tags -/

/-- The byte values that are tags of a table. -/
def Layout.tagValues (L : Layout) : List Nat := L.map fun e => e.id.toNat

/-- A byte value is a tag exactly when it looks up an entry (30_encoding.md R61). -/
theorem Layout.mem_tagValues_iff {L : Layout} {n : Nat} (hn : n < 256) :
    n ∈ L.tagValues ↔ L.lookup (BitVec.ofNat 8 n) ≠ none := by
  rw [Ne, Layout.lookup_eq_none_iff, Layout.tagValues, List.mem_map]
  push Not
  refine exists_congr fun e => and_congr_right fun _ => ⟨fun h => ?_, fun h => ?_⟩
  · rw [← h, BitVec.ofNat_toNat, BitVec.setWidth_eq]
  · rw [h, BitVec.toNat_ofNat, Nat.mod_eq_of_lt hn]

/-- With distinct identifiers, the legal byte values are as many as the entries. -/
theorem Layout.count_legal {L : Layout} (hn : (L.map Entry.id).Nodup) :
    ((List.range 256).filter fun n => L.lookup (BitVec.ofNat 8 n) ≠ none).length = L.length := by
  have hnodup : L.tagValues.Nodup := by
    have h := hn.map BitVec.toNat_injective
    rwa [List.map_map] at h
  have hperm :
      ((List.range 256).filter fun n => L.lookup (BitVec.ofNat 8 n) ≠ none).Perm L.tagValues := by
    refine (List.perm_ext_iff_of_nodup (List.nodup_range.filter _) hnodup).2 fun n => ?_
    rw [List.mem_filter, List.mem_range, decide_eq_true_eq]
    refine ⟨fun h => (Layout.mem_tagValues_iff h.1).2 h.2, fun h => ?_⟩
    have hlt : n < 256 := by
      obtain ⟨e, -, rfl⟩ := List.mem_map.1 h
      exact e.id.isLt
    exact ⟨hlt, (Layout.mem_tagValues_iff hlt).1 h⟩
  rw [hperm.length_eq, Layout.tagValues, List.length_map]

/-- An admissible table has 29 tags, and leaves the other 227 byte values illegal (30_encoding.md R61). -/
theorem Layout.count_illegal {L : Layout} (hL : L.admissible = true) :
    ((List.range 256).filter fun n => L.lookup (BitVec.ofNat 8 n) = none).length = 227 := by
  have hlegal := Layout.count_legal (Layout.admissible_nodup hL)
  have hsplit := List.length_eq_length_filter_add (l := List.range 256)
    fun n => decide (L.lookup (BitVec.ofNat 8 n) = none)
  simp only [ne_eq, decide_not] at hlegal
  rw [hlegal, (Layout.admissible_parts hL).1, List.length_range] at hsplit
  omega

end Sys2Proof

namespace Sys2Proof.Machine

/-- Settles O6: the tags of an admissible table are counted by its entries; a step at any other byte raises
the error; the reference table's tags are read off it, byte by byte. -/
theorem illegalTagsAreCounted : Obligations.IllegalTagsAreCounted := by
  refine ⟨fun L hL => ⟨Layout.count_illegal hL, Layout.lookup_eq_none_iff.2 ?_⟩,
    fun s t hs ht hl => step_unrecognized hs ht hl, by decide⟩
  obtain ⟨-, -, -, -, -, -, -, -, -, h20, -⟩ := Layout.admissible_parts hL
  exact h20

end Sys2Proof.Machine

/-!
PROOFS. What each record's meaning answers (41_field_decoders.md R87 to R118): the values written, the
illegal bytes, the frame, and the last write of a field (10_state.md R33).
-/

namespace Sys2Proof

open Machine

/-- A legal OCC byte writes its own code (10_state.md R30). -/
theorem Instr.written_occ {b : Byte} (hb : b.toNat ≤ 2) (r : Record) :
    (Instr.occ b).written r = some { r with occupancy := some (BitVec.ofNat 2 b.toNat) } := by
  cases ho : occupancyOf b with
  | none => exact absurd ((occupancyOf_eq_none_iff b).1 ho) (by omega)
  | some o =>
    have hcode : BitVec.ofNat 2 b.toNat = o.code := by
      rw [(occupancyOf_eq_some_iff b o).1 ho, BitVec.ofNat_toNat, BitVec.setWidth_eq]
    simp [Instr.written, ho, hcode]

/-- A legal EXTD byte writes the contact state it numbers (10_state.md R31). -/
theorem Instr.written_extd {b : Byte} {d : Bool} (hb : b.toNat = d.toNat) (r : Record) :
    (Instr.extd b).written r = some { r with externalDigital := some d } := by
  simp [Instr.written, (contactOf_eq_some_iff b d).2 hb]

/-- The frame of an accepted record: its own field holds its operand, and every other field is as before
(41_field_decoders.md R118). -/
theorem Instr.written_frame {i : Instr} {r r' : Record} (h : i.written r = some r') :
    ((∃ v, i = .temp v ∧ r'.temperature = some v) ∨
      (∀ v, i ≠ .temp v) ∧ r'.temperature = r.temperature) ∧
    ((∃ v, i = .co2 v ∧ r'.co2 = some v) ∨ (∀ v, i ≠ .co2 v) ∧ r'.co2 = r.co2) ∧
    ((∃ v, i = .bat v ∧ r'.batteryMv = some v) ∨ (∀ v, i ≠ .bat v) ∧ r'.batteryMv = r.batteryMv) ∧
    ((∃ b, i = .occ b ∧ r'.occupancy.map BitVec.toNat = some b.toNat) ∨
      (∀ b, i ≠ .occ b) ∧ r'.occupancy = r.occupancy) ∧
    ((∃ b, i = .extd b ∧ r'.externalDigital.map Bool.toNat = some b.toNat) ∨
      (∀ b, i ≠ .extd b) ∧ r'.externalDigital = r.externalDigital) := by
  cases i
  case occ b =>
    obtain ⟨o, ho, rfl⟩ := Option.map_eq_some_iff.1 h
    simp [(occupancyOf_eq_some_iff b o).1 ho]
  case extd b =>
    obtain ⟨d, hd, rfl⟩ := Option.map_eq_some_iff.1 h
    simp [(contactOf_eq_some_iff b d).1 hd]
  all_goals
    cases h
    simp

end Sys2Proof

namespace Sys2Proof.Machine

/-- A record whose payload is illegal raises `InvalidEnumValue` with its payload byte. -/
theorem exec_illegal {i : Instr} {r : Record} {b : Byte} (hw : i.written r = none)
    (hpay : i.payload = [b]) (s : State) :
    exec i s = .next (s.raise .invalidEnumValue (s.cur + 1) b none) := by
  obtain ⟨c, hc, hx⟩ := exec_of_not_written hw
  obtain rfl : b = c := List.head_eq_of_cons_eq (hpay.symm.trans hc)
  exact hx s

/-- Settles O9: the three records have no illegal payload, and write the pattern as it stands. -/
theorem sixteenBitRecordsComplete : Obligations.SixteenBitRecordsComplete := fun s v =>
  ⟨exec_of_written (r := { s.record with temperature := some v }) rfl,
    exec_of_written (r := { s.record with co2 := some v }) rfl,
    exec_of_written (r := { s.record with batteryMv := some v }) rfl⟩

/-- Settles O10: a legal byte is accepted, and its register takes the byte's low bits. -/
theorem enumRecordsComplete : Obligations.EnumRecordsComplete := by
  refine fun s b => ⟨fun hb => exec_of_written (Instr.written_occ hb _), fun hb => ?_⟩
  have hd : b.toNat = (decide (b.toNat = 1)).toNat := by
    rcases Nat.le_one_iff_eq_zero_or_eq_one.1 hb with h | h <;> simp [h]
  exact exec_of_written (Instr.written_extd hd _)

/-- Settles O11: a byte that selects no state writes nothing, and is the one payload byte. -/
theorem enumRecordsTrapOnIllegalBytes : Obligations.EnumRecordsTrapOnIllegalBytes := by
  refine fun s b => ⟨fun hb => ?occ, fun hb => ?extd⟩
  case occ =>
    exact exec_illegal (r := s.record) (by simp [Instr.written, (occupancyOf_eq_none_iff b).2 hb])
      rfl s
  case extd =>
    exact exec_illegal (r := s.record) (by simp [Instr.written, (contactOf_eq_none_iff b).2 hb]) rfl s

/-- Settles O12: each of the 24 records is a no-op, whose meaning is the advance past its payload. -/
theorem noopRecordsComplete : Obligations.NoopRecordsComplete := by
  rintro s p _ rfl
  have hskip : ∀ i : Instr, i.isNoop = true → i.payload = p →
      exec i s = .next { s with cur := s.cur + p.length + 1 } := by
    rintro i hi rfl
    exact exec_noop hi
  and_intros <;> exact hskip _ rfl rfl

/-- Settles O13: an accepted record writes what its frame says, and any other record is an enumeration with
an illegal byte. -/
theorem recordsWriteOnlyTheirField : Obligations.RecordsWriteOnlyTheirField := by
  intro i s t hx
  obtain ⟨hmem, hlen, hlayout⟩ := exec_keeps_input hx
  refine ⟨hmem, hlen, hlayout, State.memRead_congr hmem hlen, ?_⟩
  rcases exec_accepts_or_rejects hx with ⟨r, hw, rfl⟩ | ⟨hw, b, hb, rfl, -⟩
  · exact .inl ⟨rfl, rfl, rfl, rfl, Instr.written_frame hw⟩
  · obtain ⟨c, hi⟩ := Instr.written_eq_none hw
    obtain rfl : c = b := by rcases hi with ⟨rfl, -⟩ | ⟨rfl, -⟩ <;> exact List.head_eq_of_cons_eq hb
    rw [occupancyOf_eq_none_iff, contactOf_eq_none_iff] at hi
    exact .inr ⟨c, hi, rfl⟩

/-- Settles O15: the second record writes the same field over whatever the first one left there. -/
theorem lastWriteWins : Obligations.LastWriteWins := by
  intro s v w d d' b b' hb hb'
  have hcontact : ∀ c : Bool, (BitVec.ofNat 8 c.toNat : Byte).toNat = c.toNat := by decide
  exact ⟨⟨_, _, exec_of_written rfl, exec_of_written rfl, rfl⟩,
    ⟨_, _, exec_of_written rfl, exec_of_written rfl, rfl⟩,
    ⟨_, _, exec_of_written rfl, exec_of_written rfl, rfl⟩,
    ⟨_, _, exec_of_written (Instr.written_occ hb _), exec_of_written (Instr.written_occ hb' _), rfl⟩,
    ⟨_, _, exec_of_written (Instr.written_extd (hcontact d) _),
      exec_of_written (Instr.written_extd (hcontact d') _), rfl⟩⟩

end Sys2Proof.Machine

/-!
PROOFS. What ends a step and what it reads: the errors, each a row of the table at the record at the cursor
(60_exceptions.md R135 to R139), the presence flags (10_state.md R21, R32), the refusal (30_encoding.md
R57), and the bytes a step depends on (20_memory.md R43, R45).
-/

namespace Sys2Proof.Machine

/-! ## Errors -/

/-- Every error of a step: the byte at the cursor has no entry, or an entry without room, or it is the tag
of a record that fits and whose one payload byte is illegal. -/
theorem step_error_cases {s t : State} (hs : s.status = .busy) (hstep : step s = .next t)
    (ht : t.status = .doneErr) :
    (∃ b, s.memRead s.cur = some b ∧ s.layout.lookup b = none ∧ t = s.raiseUnrecognized b) ∨
      (∃ b e, s.memRead s.cur = some b ∧ s.layout.lookup b = some e ∧ s.len ≤ s.cur + e.size ∧
        t = s.raiseTruncated b e.size) ∨
      (∃ g e b i, s.memRead s.cur = some g ∧ s.layout.lookup g = some e ∧ s.cur + e.size < s.len ∧
        s.readSpan (s.cur + 1) e.size = some [b] ∧ e.spell [b] = .row i ∧ i.written s.record = none ∧
        t = s.raise .invalidEnumValue (s.cur + 1) b none) := by
  rcases step_cases hstep with ⟨hn, -⟩ | ⟨-, -, rfl⟩ | ⟨b, -, hb, hl, rfl⟩ |
    ⟨b, e, -, hb, hl, hN, rfl⟩ | ⟨b, e, -, -, -, -, -, rfl⟩ |
    ⟨g, e, p, i, -, hg, hl, hN, -, hp, hsp, hx⟩
  · exact absurd hs hn
  · cases ht
  · exact .inl ⟨b, hb, hl, rfl⟩
  · exact .inr (.inl ⟨b, e, hb, hl, hN, rfl⟩)
  · simp [hs] at ht
  · rcases exec_accepts_or_rejects hx with ⟨r, -, rfl⟩ | ⟨hw, b, hpay, rfl, -⟩
    · simp [State.accept, hs] at ht
    · obtain rfl : p = [b] := (Entry.spell_row hsp).1.symm.trans hpay
      exact .inr (.inr ⟨g, e, b, i, hg, hl, hN, hp, hsp, hw, rfl⟩)

/-- Settles O33: the illegal payload byte is the one after the tag, and its record an enumeration. -/
theorem everyErrorIsARowOfTheTable : Obligations.EveryErrorIsARowOfTheTable := by
  intro s t hs hstep ht
  rcases step_error_cases hs hstep ht with h | h | ⟨g, e, b, i, hg, hl, hN, hp, hsp, hw, rfl⟩
  · exact .inl h
  · exact .inr (.inl h)
  · have hsize : e.size = 1 := (State.readSpan_length hp).symm
    rw [hsize] at hp
    obtain ⟨-, -, hocc, hextd⟩ := Entry.spell_row hsp
    have hillegal : e.dec = .occ ∧ b.toNat ∉ [0, 1, 2] ∨ e.dec = .extd ∧ b.toNat ∉ [0, 1] := by
      obtain ⟨c, ⟨rfl, hc⟩ | ⟨rfl, hc⟩⟩ := Instr.written_eq_none_iff.1 hw
      · obtain ⟨hd, hbc⟩ := hocc c rfl
        cases hbc
        exact .inl ⟨hd, hc⟩
      · obtain ⟨hd, hbc⟩ := hextd c rfl
        cases hbc
        exact .inr ⟨hd, hc⟩
    exact .inr (.inr ⟨g, e, b, hg, hl, hN, (State.readSpan_cons hp).1, hillegal, rfl⟩)

/-- Settles O31: the row that an error is decides both its kind and what the checks before it found. -/
theorem errorPriorityIsCheckOrder : Obligations.ErrorPriorityIsCheckOrder := by
  refine ⟨fun s t b hs hb hstep ht => ?kinds, fun s hL => ?truncatedOcc⟩
  case kinds =>
    rcases step_error_cases hs hstep ht with ⟨b', hb', hl, rfl⟩ | ⟨b', e, hb', hl, hN, rfl⟩ |
      ⟨b', e, c, i, hb', hl, hN, -, -, -, rfl⟩
    · cases hb.symm.trans hb'
      simp [State.raiseUnrecognized, hl]
    · cases hb.symm.trans hb'
      simp [State.raiseTruncated, hl, hN]
    · cases hb.symm.trans hb'
      simp [hl, hN]
  case truncatedOcc =>
    obtain ⟨-, -, hocc, -⟩ := Layout.admissible_parts hL
    exact ⟨_, step_entry_truncated (s := s.latch [0x05]) rfl hL hocc rfl le_rfl, rfl⟩

/-- Settles O34: each of the three errors is raised whatever the record registers hold, and clears them. -/
theorem partialRecordStaysHidden : Obligations.PartialRecordStaysHidden := by
  refine ⟨fun s hs => State.readRecord_of_status (by rcases hs with hs | hs <;> simp [hs]),
    fun s t r hs hstep ht => ?_⟩
  rcases step_error_cases hs hstep ht with ⟨b, hb, hl, rfl⟩ | ⟨b, e, hb, hl, hN, rfl⟩ |
    ⟨g, e, b, i, hg, hl, hN, hp, hsp, hw, rfl⟩
  · exact step_unrecognized (s := { s with record := r }) hs hb hl
  · exact step_truncated (s := { s with record := r }) hs hb hl hN
  · have hp' : ({ s with record := r } : State).readSpan (s.cur + 1) e.size = some [b] := by
      rw [State.readSpan_eq_some_iff] at hp ⊢
      exact hp
    rw [step_fits (s := { s with record := r }) hs hg hl hN hp', hsp]
    exact exec_illegal hw (Entry.spell_row hsp).1 _

/-- Settles O32: the error entry is one update of the state, field by field as it stands. -/
theorem errorEntryWritesStatusAndRegisters : Obligations.ErrorEntryWritesStatusAndRegisters := by
  refine fun s k index byte size => ⟨rfl, fun n hn => ?_, rfl, rfl, rfl, rfl⟩
  rw [State.raise_err, hn, Option.getD_some]

/-! ## The presence flags -/

/-- From `r` to `r'` the flag of decoder `d`'s field was set and every other flag left as it was. -/
def Record.FlagSet (d : Decoder) (r r' : Record) : Prop :=
  (r'.temperatureValid = (r.temperatureValid || decide (d = .temp))) ∧
  (r'.co2Valid = (r.co2Valid || decide (d = .co2))) ∧
  (r'.batteryValid = (r.batteryValid || decide (d = .bat))) ∧
  (r'.occupancyValid = (r.occupancyValid || decide (d = .occ))) ∧
  (r'.contactValid = (r.contactValid || decide (d = .extd)))

/-- The same in the record's registers: a flag is the tag of its field (10_state.md R38). -/
theorem Record.flagSet_iff {d : Decoder} {r r' : Record} : Record.FlagSet d r r' ↔
    (r'.temperature.isSome = (r.temperature.isSome || decide (d = .temp))) ∧
    (r'.co2.isSome = (r.co2.isSome || decide (d = .co2))) ∧
    (r'.batteryMv.isSome = (r.batteryMv.isSome || decide (d = .bat))) ∧
    (r'.occupancy.isSome = (r.occupancy.isSome || decide (d = .occ))) ∧
    (r'.externalDigital.isSome = (r.externalDigital.isSome || decide (d = .extd))) :=
  Iff.rfl

/-- The no-op decoder sets no flag. -/
theorem Record.flagSet_noop (r : Record) : Record.FlagSet .noop r r := by
  simp [Record.flagSet_iff]

/-- An accepted record sets the flag of its entry's decoder. -/
theorem Record.flagSet_of_written {e : Entry} {p : List Byte} {i : Instr} {r r' : Record}
    (hsp : e.spell p = .row i) (hw : i.written r = some r') : Record.FlagSet e.dec r r' := by
  rcases Entry.spell_row_cases hsp with ⟨p0, p1, -, hi⟩ | ⟨b, -, ⟨hd, rfl⟩ | ⟨hd, rfl⟩⟩ | ⟨hd, hi⟩
  · rcases hi with ⟨hd, rfl⟩ | ⟨hd, rfl⟩ | ⟨hd, rfl⟩ <;>
      (cases hw
       simp [Record.flagSet_iff, hd])
  · obtain ⟨o, -, rfl⟩ := Option.map_eq_some_iff.1 hw
    simp [Record.flagSet_iff, hd]
  · obtain ⟨d, -, rfl⟩ := Option.map_eq_some_iff.1 hw
    simp [Record.flagSet_iff, hd]
  · rw [Instr.written_noop hi] at hw
    cases hw
    exact hd ▸ Record.flagSet_noop r

/-- Settles O39: a step that stays in progress accepted a record, whose decoder writes its own field. -/
theorem presenceFlagsFollowTheDecoders : Obligations.PresenceFlagsFollowTheDecoders := by
  refine ⟨fun s bytes => ⟨rfl, rfl, rfl, rfl, rfl, rfl⟩, fun s t hs hstep ht => ?_⟩
  rcases step_cases hstep with ⟨hn, -⟩ | ⟨-, -, rfl⟩ | ⟨b, -, -, -, rfl⟩ | ⟨b, e, -, -, -, -, rfl⟩ |
    ⟨b, e, -, hb, hl, -, hd, rfl⟩ | ⟨b, e, p, i, -, hb, hl, -, -, -, hsp, hx⟩
  · exact absurd hs hn
  · cases ht
  · cases ht
  · cases ht
  · exact ⟨b, e, hb, hl, hd ▸ Record.flagSet_noop s.record⟩
  · rcases exec_accepts_or_rejects hx with ⟨r, hw, rfl⟩ | ⟨-, c, -, rfl, -⟩
    · exact ⟨b, e, hb, hl, Record.flagSet_of_written hsp hw⟩
    · cases ht

/-! ## Refusal -/

/-- A step at a cursor where the buffer should hold a byte and does not faults (20_memory.md R39). -/
theorem step_no_byte {s : State} (hs : s.status = .busy) (hc : s.cur < s.len)
    (hb : s.memRead s.cur = none) : step s = .fault (.bufferIndex s.cur) := by
  simp [step, State.front, hs, hb, Nat.not_le.2 hc]

/-- A refused step is at a whole record that misfits its entry's decoder. -/
theorem step_refused {s : State} {r : Refusal} (h : step s = .refused r) :
    ∃ t e p, s.memRead s.cur = some t ∧ s.layout.lookup t = some e ∧ p.length = e.size ∧
      e.dec ≠ .noop ∧ e.spell p = .misfit ∧ r = .inadmissibleEntry t := by
  by_cases hs : s.status = .busy
  case neg => simp [step_not_busy hs] at h
  by_cases hc : s.len ≤ s.cur
  case pos => simp [step_exit hs hc] at h
  cases hb : s.memRead s.cur with
  | none => simp [step_no_byte hs (Nat.lt_of_not_le hc) hb] at h
  | some t =>
    cases hl : s.layout.lookup t with
    | none => simp [step_unrecognized hs hb hl] at h
    | some e =>
      by_cases hN : s.cur + e.size < s.len
      case neg => simp [step_truncated hs hb hl (Nat.le_of_not_lt hN)] at h
      by_cases hd : e.dec = .noop
      case pos => simp [step_noop hs hb hl hN hd] at h
      rw [step_record hs hb hl hN, State.fetchPayload_reads s hd] at h
      cases hp : s.readSpan (s.cur + 1) e.size with
      | none => simp [hp] at h
      | some p =>
        simp only [hp] at h
        cases hsp : e.spell p with
        | row i =>
          obtain ⟨u, hx⟩ := exec_next i s
          simp [hsp, hx] at h
        | otherNoop => simp [hsp] at h
        | misfit =>
          rw [hsp] at h
          cases h
          exact ⟨t, e, p, rfl, hl, State.readSpan_length hp, hd, hsp, rfl⟩

/-- Settles O52: no entry of an admissible table misfits its decoder, and no no-op entry of any table. -/
theorem refusalNeedsAnInadmissibleTable : Obligations.RefusalNeedsAnInadmissibleTable := by
  intro s r h
  obtain ⟨t, e, p, ht, hl, hp, hd, hsp, hr⟩ := step_refused h
  exact ⟨Layout.not_admissible_of_misfit hl hp hsp, t, e, ht, hl, hr, hd⟩

/-! ## What a step reads -/

/-- A record's meaning reads nothing of the buffer. -/
theorem exec_other_buffer {i : Instr} {s t : State} (hx : exec i s = .next t) (m : Memory) :
    exec i { s with mem := m } = .next { t with mem := m } := by
  rcases exec_accepts_or_rejects hx with ⟨r, hw, rfl⟩ | ⟨-, b, -, rfl, hraise⟩
  · exact exec_of_written (s := { s with mem := m }) hw
  · exact hraise _

/-- Settles O53: each way a step goes on at a known tag needs the tag, and the payload only where a decoder
sets a field. -/
theorem stepReadsOnlyItsRecord : Obligations.StepReadsOnlyItsRecord := by
  intro s t m b e hs hb hl htag hpay hstep
  have hb' := htag.trans hb
  rcases step_cases hstep with ⟨hn, -⟩ | ⟨-, hc, -⟩ | ⟨c, -, hc, hn, -⟩ | ⟨c, f, -, hc, hf, hN, rfl⟩ |
    ⟨c, f, -, hc, hf, hN, hd, rfl⟩ | ⟨c, f, p, i, -, hc, hf, hN, hd, hp, hsp, hx⟩
  · exact absurd hs hn
  · exact absurd (State.memRead_lt hb) (Nat.not_lt.2 hc)
  · cases hb.symm.trans hc
    simp [hl] at hn
  all_goals
    cases hb.symm.trans hc
    cases hl.symm.trans hf
  · exact step_truncated (s := { s with mem := m }) hs hb' hl hN
  · exact step_noop (s := { s with mem := m }) hs hb' hl hN hd
  · have hp' : ({ s with mem := m } : State).readSpan (s.cur + 1) e.size = some p := by
      rw [State.readSpan_eq_some_iff] at hp ⊢
      obtain ⟨hlen, hread⟩ := hp
      exact ⟨hlen, fun k hk => (hpay hd _ (by omega) (by omega)).trans (hread k hk)⟩
    rw [step_fits (s := { s with mem := m }) hs hb' hl hN hp', hsp]
    exact exec_other_buffer hx m

/-! ## The no-op rows of the reference table -/

/-- A row of a list whose rows are all no-op entries of the reference table is one. -/
theorem layoutRef_mem_of_rows {rows : List (Nat × Nat)}
    (h : ∀ r ∈ rows, (⟨BitVec.ofNat 8 r.1, r.2, .noop⟩ : Entry) ∈ layoutRef) {t : Byte} {n : Nat}
    (ht : (t.toNat, n) ∈ rows) : (⟨t, n, .noop⟩ : Entry) ∈ layoutRef := by
  simpa using h _ ht

/-- Settles O26: the 24 rows are entries of the reference table, and a no-op entry's record is consumed or
truncated. -/
theorem referenceNoopRows : Obligations.ReferenceNoopRows := by
  intro s t n hs hL ht hrow
  have he : (⟨t, n, .noop⟩ : Entry) ∈ s.layout := hL ▸ layoutRef_mem_of_rows (by decide) hrow
  have hadm : s.layout.admissible = true := hL ▸ referenceLayoutIsAdmissible.1
  exact noopEntryConsumesItsSpan s _ hs hadm he rfl ht

end Sys2Proof.Machine

/-!
PROOFS. What the host reads: after reset (10_state.md R37), of the error registers (R25), and the record's
equality and exact views (42_record_views.md R122 to R130).
-/

namespace Sys2Proof.Machine

/-- Settles O41: in `IDLE` neither error nor record is readable, and a request starts over. -/
theorem resetStateIsIdleAndEmpty : Obligations.ResetStateIsIdleAndEmpty :=
  ⟨rfl, rfl, rfl, rfl, State.readErr_of_status (by decide), State.readRecord_of_status (by decide),
    fun _ _ => ⟨rfl, rfl, rfl, rfl, rfl⟩⟩

/-! ## The error registers -/

theorem State.errReadable_of_status {s : State} (h : s.status ≠ .doneErr) :
    s.errReadable = .error .errNotReadable := by
  cases hs : s.status
  case doneErr => exact absurd hs h
  all_goals simp [State.errReadable, hs]

theorem State.errReadable_of_doneErr {s : State} (h : s.status = .doneErr) :
    s.errReadable = .ok s.err := by
  simp [State.errReadable, h]

theorem ErrRegs.kindNamed_of_code {e : ErrRegs} {k : ErrKind} (h : e.kind = k.code) :
    e.kindNamed = .ok k := by
  simp [ErrRegs.kindNamed, h]

/-- Settles O43: all four reads go through the readable registers, and the size through the kind named. -/
theorem errorRegistersReadableOnlyAfterAnError : Obligations.ErrorRegistersReadableOnlyAfterAnError := by
  refine fun s => ⟨fun hs => ?outside, fun k hs hk => ?inside⟩
  case outside =>
    have he := State.errReadable_of_status hs
    simp [State.readErrKind, State.readErrIndex, State.readErrByte, State.readErrSize, he, Except.map]
  case inside =>
    have he := State.errReadable_of_doneErr hs
    have hn := ErrRegs.kindNamed_of_code hk
    refine ⟨by simp [State.readErrKind, he, hn], by simp [State.readErrIndex, he, Except.map],
      by simp [State.readErrByte, he, Except.map], ?_⟩
    cases k <;> simp [State.readErrSize, he, hn]

/-! ## Record equality -/

/-- Two counts of tenths nearer than half a tenth are equal (42_record_views.md R123). -/
theorem abs_tenths_lt_iff (u v : Int) : |(u : ℚ) / 10 - (v : ℚ) / 10| < 1 / 20 ↔ u = v := by
  constructor
  · intro h
    have hscaled : |(u : ℚ) - v| < 1 := by
      rw [← sub_div, abs_div, abs_of_pos (by norm_num : (0 : ℚ) < 10)] at h
      linarith
    have hint : |u - v| < 1 := by exact_mod_cast hscaled
    exact sub_eq_zero.1 (Int.abs_lt_one_iff.1 hint)
  · rintro rfl
    norm_num

/-- The comparison of optional temperatures is equality. -/
theorem tempEq_iff (u v : Option Int) : tempEq u v = true ↔ u = v := by
  cases u <;> cases v <;> simp only [tempEq, decide_eq_true_eq, abs_tenths_lt_iff, Option.some.injEq,
    reduceCtorEq, Bool.false_eq_true]

/-- Settles O45: the comparison of temperatures is equality, as that of the other fields is. -/
theorem recordEqualityIsExact : Obligations.RecordEqualityIsExact := by
  refine ⟨fun u v => (tempEq_iff _ _).trans Option.some_inj, ⟨rfl, fun u => ⟨rfl, rfl⟩⟩, fun a b => ?_⟩
  cases a
  cases b
  simp [recordEq, tempEq_iff, and_assoc]

/-! ## The exact views and the raw reads -/

/-- Every occupancy code but 3 names the state it is the code of (10_state.md R30). -/
theorem readOccupancyCode_of_ne_three {c : Option (BitVec 2)} (h : c ≠ some 3) :
    ∃ o, readOccupancyCode c = .ok o ∧ o.map Occupancy.code = c := by
  cases c with
  | none => exact ⟨none, rfl, rfl⟩
  | some c =>
    have hnamed : ∀ c : BitVec 2, c ≠ 3 → (Occupancy.ofCode c).map Occupancy.code = some c := by
      decide
    have hc := hnamed c fun h3 => h (congrArg some h3)
    obtain ⟨o, ho, -⟩ := Option.map_eq_some_iff.1 hc
    exact ⟨some o, by simp [readOccupancyCode, ho], ho ▸ hc⟩

/-- What the host reads of the record in `DONE_OK`, field by field (10_state.md R38). -/
theorem State.readRecord_of_doneOk {s : State} (hs : s.status = .doneOk)
    (ho : s.record.occupancy ≠ some 3) :
    ∃ o, o.map Occupancy.code = s.record.occupancy ∧
      s.readRecord = .ok ⟨s.record.temperature.map sext16, s.record.co2.map BitVec.toNat,
        s.record.batteryMv.map BitVec.toNat, o, s.record.externalDigital⟩ := by
  obtain ⟨o, hread, hcode⟩ := readOccupancyCode_of_ne_three ho
  exact ⟨o, hcode, by simp [State.readRecord, hs, Record.decoded, hread]⟩

/-- Settles O46: every view and every raw read goes through the host's read of the record. -/
theorem viewsProjectTheRecord : Obligations.ViewsProjectTheRecord := by
  refine ⟨fun _ _ => rfl, fun _ => rfl, fun s fmt => ⟨fun hs => ?outside, fun hs ho => ?inside⟩⟩
  case outside =>
    have hr := State.readRecord_of_status hs
    simp [State.viewCelsius, State.viewCelsiusFloat, State.viewCo2, State.viewVolts,
      State.viewVoltsFloat, State.viewMillivolts, State.viewOccupancy, State.viewContact,
      State.readRegister, hr, Except.map]
  case inside =>
    obtain ⟨o, hcode, hr⟩ := State.readRecord_of_doneOk hs ho
    have hcelsius : s.viewCelsius = .ok (s.record.temperature.map fun v => (sext16 v : ℚ) / 10) := by
      rw [State.viewCelsius, hr]
      cases s.record.temperature <;> rfl
    have hvolts : s.viewVolts = .ok (s.record.batteryMv.map fun v => (v.toNat : ℚ) / 1000) := by
      rw [State.viewVolts, hr]
      cases s.record.batteryMv <;> rfl
    refine ⟨hcelsius, fun x hx => ?range, ?_, hvolts, ?_, ⟨o, ?_, hcode, ?_⟩, ?_, ?_, ?_, ?_, ?_⟩
    case range =>
      obtain ⟨v, -, rfl⟩ := Option.map_eq_some_iff.1 (Except.ok.inj (hcelsius.symm.trans hx))
      obtain ⟨-, -, hlo, hhi, -⟩ := sext16WidensTwosComplement.1 v
      have hlo' : (-32768 : ℚ) ≤ sext16 v := by exact_mod_cast hlo
      have hhi' : (sext16 v : ℚ) ≤ 32767 := by exact_mod_cast hhi
      constructor <;> linarith
    all_goals
      simp [State.viewCo2, State.viewMillivolts, State.viewOccupancy, State.viewContact,
        State.readRegister, hr, Except.map]

end Sys2Proof.Machine

/-!
PROOFS. Several blocks side by side (20_memory.md R52, 60_exceptions.md R148): in an interleaving each goes
through its own moves as if it were alone.
-/

namespace Sys2Proof.Machine

/-! ## The moves of one block -/

/-- The moves of one block, made one after the other from its own state. -/
def State.makeMoves (s : State) : List Move → Result
  | [] => .next s
  | m :: ms =>
    match m.apply s with
    | .next t => t.makeMoves ms
    | .fault f => .fault f
    | .refused r => .refused r

theorem State.makeMoves_cons {s t : State} {m : Move} (h : m.apply s = .next t) (ms : List Move) :
    s.makeMoves (m :: ms) = t.makeMoves ms := by
  simp only [State.makeMoves, h]

/-- Where the moves answer a next state, the first of them does. -/
theorem State.makeMoves_cons_next {s u : State} {m : Move} {ms : List Move}
    (h : s.makeMoves (m :: ms) = .next u) : ∃ t, m.apply s = .next t ∧ t.makeMoves ms = .next u := by
  cases hm : m.apply s with
  | next t => exact ⟨t, rfl, State.makeMoves_cons hm ms ▸ h⟩
  | fault f => simp [State.makeMoves, hm] at h
  | refused r => simp [State.makeMoves, hm] at h

/-- Steps alone are a run of the core. -/
theorem State.makeMoves_steps (s : State) (n : Nat) :
    s.makeMoves (List.replicate n .step) = Sys2Proof.core.run n s := by
  induction n generalizing s with
  | zero => rfl
  | succ n ih =>
    rw [List.replicate_succ, core_run_succ, State.makeMoves, Move.apply]
    cases step s with
    | next t => exact ih t
    | fault f => rfl
    | refused r => rfl

/-- A run that is over goes on unchanged. -/
theorem core_run_of_le {s t : State} {m n : Nat} (hmn : m ≤ n)
    (h : Sys2Proof.core.run m s = .next t) (ht : t.status ≠ .busy) :
    Sys2Proof.core.run n s = .next t := by
  induction m generalizing s n with
  | zero =>
    cases h
    exact core_run_hold ht n
  | succ m ih =>
    obtain ⟨n, rfl⟩ := Nat.exists_eq_add_one_of_ne_zero (Nat.ne_zero_of_lt hmn)
    obtain ⟨u, hstep, hrest⟩ := core_run_succ_next h
    rw [core_run_succ, hstep]
    exact ih (Nat.le_of_succ_le_succ hmn) hrest

/-- A step keeps the table a block has. -/
theorem step_layout {L : Layout} {s t : State} (hs : s.layout = L) (hstep : step s = .next t) :
    t.layout = L := by
  obtain ⟨-, -, hlayout⟩ := step_keeps_input hstep
  exact hlayout.trans hs

/-- The decode of `bytes` is over in `t`, and its response is the document's. -/
structure State.Decoded (t : State) (L : Layout) (bytes : List Byte) : Prop where
  ended : t.status = .doneOk ∨ t.status = .doneErr
  layout : t.layout = L
  response : ∃ r, deserialize L bytes = some r ∧ t.response = .ok r

/-- From a request's state, `N + 1` steps or more end the decode (40_dispatch.md R77, R79). -/
theorem State.latch_run_decoded {s : State} (hL : s.layout.admissible = true) {bytes : List Byte}
    {n : Nat} (hn : bytes.length + 1 ≤ n) :
    ∃ t, Sys2Proof.core.run n (s.latch bytes) = .next t ∧ t.Decoded s.layout bytes := by
  obtain ⟨t, r, hrun, hended, hd, hr⟩ := steppingRefinesDeserialize s bytes hL
  have hbusy : t.status ≠ .busy := by rcases hended with h | h <;> simp [h]
  have hlayout : t.layout = s.layout :=
    core_run_keeps (P := fun u => u.layout = s.layout) (fun _ _ => step_layout)
      (s.latch_layout bytes) hrun
  exact ⟨t, core_run_of_le hn hrun hbusy, hended, hlayout, r, hd, hr⟩

/-- One decode of `bytes`, made alone, comes to its end. -/
theorem IsDecodeOf.decoded {s : State} {bytes : List Byte} {ms : List Move} (h : IsDecodeOf s bytes ms)
    (hL : s.layout.admissible = true) : ∃ t, s.makeMoves ms = .next t ∧ t.Decoded s.layout bytes := by
  obtain ⟨n, hn, ⟨hs, ha, rfl⟩ | ⟨⟨s₀, rfl⟩, rfl⟩⟩ := h
  · rw [State.makeMoves_cons (m := .request bytes) (request_admitted hs ha), State.makeMoves_steps]
    exact State.latch_run_decoded hL hn
  · rw [State.makeMoves_steps]
    exact State.latch_run_decoded (s := s₀) hL hn

/-! ## Interleavings -/

/-- Each block's own moves in the interleaving, made alone, lead it to its final state. -/
def EachReaches (ss : List State) (moves : List (Nat × Move)) (final : Nat → State) : Prop :=
  ∀ (j : Nat) (s : State), ss[j]? = some s → s.makeMoves (movesOf j moves) = .next (final j)

/-- A move of a block that is not there leaves the others' moves as they are. -/
theorem EachReaches.absent {ss : List State} {k : Nat} {m : Move} {moves : List (Nat × Move)}
    {final : Nat → State} (h : EachReaches ss ((k, m) :: moves) final) (hk : ss[k]? = none) :
    EachReaches ss moves final := by
  intro j s hj
  have hne : k ≠ j := by
    rintro rfl
    simp [hk] at hj
  exact movesOf_cons_ne hne m moves ▸ h j s hj

/-- The first move of an interleaving is made, and leaves each block the rest of its own moves. -/
theorem EachReaches.present {ss : List State} {k : Nat} {m : Move} {moves : List (Nat × Move)}
    {final : Nat → State} (h : EachReaches ss ((k, m) :: moves) final) {s : State}
    (hk : ss[k]? = some s) :
    ∃ t, m.apply s = .next t ∧ EachReaches (ss.set k t) moves final := by
  have hself := h k s hk
  rw [movesOf_cons_self] at hself
  obtain ⟨t, hm, ht⟩ := State.makeMoves_cons_next hself
  refine ⟨t, hm, fun j u hj => ?_⟩
  by_cases hne : k = j
  · subst hne
    rw [List.getElem?_set_self (List.getElem?_eq_some_iff.1 hk).1] at hj
    cases hj
    exact ht
  · rw [List.getElem?_set_ne hne] at hj
    exact movesOf_cons_ne hne m moves ▸ h j u hj

/-- An interleaving leads each block to the final state of its own moves. -/
theorem EachReaches.runMoves {ss : List State} {moves : List (Nat × Move)} {final : Nat → State}
    (h : EachReaches ss moves final) :
    ∃ ss', Machine.runMoves ss moves = .next ss' ∧ ss'.length = ss.length ∧
      ∀ j, j < ss.length → ss'[j]? = some (final j) := by
  induction moves generalizing ss with
  | nil =>
    refine ⟨ss, rfl, rfl, fun j hj => ?_⟩
    have hget := List.getElem?_eq_getElem hj
    exact hget.trans (congrArg some (Host.Outcome.next.inj (h j _ hget)))
  | cons km moves ih =>
    obtain ⟨k, m⟩ := km
    cases hk : ss[k]? with
    | none =>
      rw [runMoves_cons moves (moveAt_absent hk)]
      exact ih (h.absent hk)
    | some s =>
      obtain ⟨t, hm, ht⟩ := h.present hk
      obtain ⟨ss', hrun, hlen, hall⟩ := ih ht
      rw [List.length_set] at hlen hall
      exact ⟨ss', (runMoves_cons moves (moveAt_next hk hm)).trans hrun, hlen, hall⟩

/-- Moves of two blocks lead to the same states in either order. -/
theorem moveAt_comm {ss ss1 ss2 : List State} {j k : Nat} {a b : Move} (hjk : j ≠ k)
    (hj : moveAt ss j a = .next ss1) (hk : moveAt ss k b = .next ss2) :
    ∃ ss3, moveAt ss1 k b = .next ss3 ∧ moveAt ss2 j a = .next ss3 := by
  have hk1 : ss1[k]? = ss[k]? := moveAt_frame hj hjk.symm
  have hj2 : ss2[j]? = ss[j]? := moveAt_frame hk hjk
  rcases moveAt_cases hj with ⟨hjn, rfl⟩ | ⟨s, s', hs, ha, rfl⟩
  · exact ⟨ss2, hk, moveAt_absent (hj2.trans hjn)⟩
  · rcases moveAt_cases hk with ⟨hkn, rfl⟩ | ⟨u, u', hu, hb, rfl⟩
    · exact ⟨_, moveAt_absent (hk1.trans hkn), hj⟩
    · refine ⟨_, moveAt_next (hk1.trans hu) hb, ?_⟩
      rw [List.set_comm _ _ hjk]
      exact moveAt_next (hj2.trans hs) ha

/-- Settles O60: each block's own moves are one decode, which made alone comes to its end. -/
theorem instancesAreIndependent : Obligations.InstancesAreIndependent := by
  refine ⟨fun ss buffers moves h => ?interleaving, fun ss ss1 ss2 j k a b hjk hj hk =>
    ⟨moveAt_comm hjk hj hk, fun l hl => moveAt_frame hj hl⟩⟩
  case interleaving =>
    have halone : ∀ j, ∃ t : State, ∀ s, ss[j]? = some s →
        s.makeMoves (movesOf j moves) = .next t ∧ t.Decoded s.layout (buffers j) := by
      intro j
      cases hj : ss[j]? with
      | none => exact ⟨State.reset, nofun⟩
      | some s =>
        obtain ⟨hL, hdecode⟩ := h j s hj
        obtain ⟨t, ht⟩ := hdecode.decoded hL
        exact ⟨t, fun u hu => Option.some.inj hu ▸ ht⟩
    choose final hfinal using halone
    have heach : EachReaches ss moves final := fun j s hj => (hfinal j s hj).1
    obtain ⟨ss', hrun, hlen, hall⟩ := heach.runMoves
    refine ⟨ss', hrun, hlen, fun j s hj => ?_⟩
    obtain ⟨-, hended, hlayout, r, hd, hr⟩ := hfinal j s hj
    exact ⟨final j, r, hall j (List.getElem?_eq_some_iff.1 hj).1, hended, hlayout, hd, hr⟩

end Sys2Proof.Machine

/-!
PROOFS. The floating-point views (42_record_views.md R126, R128): rounding to the nearest number of the
format, ties to even (notes/assumptions/7.md, 20.md).
-/

namespace Sys2Proof.Machine

/-! ## The nearest natural number -/

/-- The rounded quotient is within half of the ratio, and even where it is half away. The distance is
counted in halves of `1 / d`, so that it is an integer. -/
theorem roundNearestEven_near {n d : Nat} (hd : 0 < d) :
    |2 * ((roundNearestEven n d : ℤ) * d - n)| ≤ d ∧
      (|2 * ((roundNearestEven n d : ℤ) * d - n)| = d → roundNearestEven n d % 2 = 0) := by
  have hmod : n % d < d := Nat.mod_lt n hd
  have hn : (n : ℤ) = d * (n / d : ℕ) + (n % d : ℕ) := by exact_mod_cast (Nat.div_add_mod n d).symm
  rw [roundNearestEven]
  split
  case isTrue hup =>
    have hdist : ((n / d + 1 : ℕ) : ℤ) * d - n = d - (n % d : ℕ) := by
      rw [hn]
      push_cast
      ring
    rw [hdist, abs_of_nonneg (by omega)]
    omega
  case isFalse hdown =>
    have hdist : ((n / d : ℕ) : ℤ) * d - n = -(n % d : ℕ) := by
      rw [hn]
      ring
    rw [hdist, mul_neg, abs_neg, abs_of_nonneg (by omega)]
    omega

/-- The same over the rationals. -/
theorem roundNearestEven_near_ratio {n d : Nat} (hd : 0 < d) :
    |(roundNearestEven n d : ℚ) - (n : ℚ) / d| ≤ 1 / 2 ∧
      (|(roundNearestEven n d : ℚ) - (n : ℚ) / d| = 1 / 2 → roundNearestEven n d % 2 = 0) := by
  obtain ⟨hnear, heven⟩ := roundNearestEven_near (n := n) hd
  have hd' : (0 : ℚ) < d := by exact_mod_cast hd
  have hscale : ((|2 * ((roundNearestEven n d : ℤ) * d - n)| : ℤ) : ℚ) =
      |(roundNearestEven n d : ℚ) - (n : ℚ) / d| * (2 * d) := by
    rw [← abs_of_pos (mul_pos two_pos hd'), ← abs_mul]
    push_cast
    congr 1
    field_simp
  have hle : |(roundNearestEven n d : ℚ) - (n : ℚ) / d| * (2 * d) ≤ d := by
    rw [← hscale]
    exact_mod_cast hnear
  refine ⟨?_, fun htie => heven ?_⟩
  · rw [le_div_iff₀ two_pos]
    nlinarith
  · have : ((|2 * ((roundNearestEven n d : ℤ) * d - n)| : ℤ) : ℚ) = d := by
      rw [hscale, htie]
      ring
    exact_mod_cast this

/-! ## Rounding to a multiple of a unit -/

/-- `m` units of `2 ^ q` are the rounding of `x`: at most half a unit away, and on a tie `m` is even. -/
structure RoundsTo (x : ℚ) (q : ℤ) (m : ℕ) : Prop where
  near : |(m : ℚ) * 2 ^ q - x| ≤ 2 ^ q / 2
  even : |(m : ℚ) * 2 ^ q - x| = 2 ^ q / 2 → m % 2 = 0

theorem two_zpow_pos (q : ℤ) : (0 : ℚ) < 2 ^ q := zpow_pos two_pos q

theorem two_zpow_add (a b : ℤ) : (2 : ℚ) ^ (a + b) = 2 ^ a * 2 ^ b := zpow_add₀ two_ne_zero a b

/-- The ratio counted in units of `2 ^ q` is the ratio of the two scaled naturals. -/
theorem scaled_ratio (n d : Nat) (q : ℤ) :
    ((n * 2 ^ (-q).toNat : ℕ) : ℚ) / (d * 2 ^ q.toNat : ℕ) = (n : ℚ) / d / 2 ^ q := by
  obtain ⟨k, rfl | rfl⟩ := q.eq_nat_or_neg
  · simp [div_div]
  · simp [div_mul_eq_mul_div]

/-- The model's mantissa is the rounding of the ratio, in whatever unit. -/
theorem roundsTo_roundNearestEven {n d : Nat} (hd : 0 < d) (q : ℤ) :
    RoundsTo ((n : ℚ) / d) q (roundNearestEven (n * 2 ^ (-q).toNat) (d * 2 ^ q.toNat)) := by
  have hpos : 0 < d * 2 ^ q.toNat := Nat.mul_pos hd (Nat.two_pow_pos _)
  obtain ⟨hnear, heven⟩ := roundNearestEven_near_ratio (n := n * 2 ^ (-q).toNat) hpos
  rw [scaled_ratio] at hnear heven
  generalize roundNearestEven (n * 2 ^ (-q).toNat) (d * 2 ^ q.toNat) = m at hnear heven
  have hu := two_zpow_pos q
  have hscale : |(m : ℚ) * 2 ^ q - (n : ℚ) / d| = |(m : ℚ) - (n : ℚ) / d / 2 ^ q| * 2 ^ q := by
    rw [← abs_of_pos hu, ← abs_mul, abs_of_pos hu, sub_mul, div_mul_cancel₀ _ hu.ne']
  have hhalf : (2 : ℚ) ^ q / 2 = 1 / 2 * 2 ^ q := by ring
  rw [← mul_le_mul_iff_left₀ hu, ← hscale, ← hhalf] at hnear
  rw [← mul_left_inj' hu.ne', ← hscale, ← hhalf] at heven
  exact ⟨hnear, heven⟩

/-- Zero units are the rounding of zero. -/
theorem roundsTo_zero (q : ℤ) : RoundsTo 0 q 0 where
  near := by simpa using (half_pos (two_zpow_pos q)).le
  even _ := rfl

/-- No multiple of the unit is nearer than the rounding. -/
theorem RoundsTo.nearest {x : ℚ} {q : ℤ} {m : ℕ} (h : RoundsTo x q m) (k : ℕ) :
    |(m : ℚ) * 2 ^ q - x| ≤ |(k : ℚ) * 2 ^ q - x| := by
  by_cases hk : k = m
  · rw [hk]
  · have hne : (k : ℤ) - m ≠ 0 := sub_ne_zero.2 (by exact_mod_cast hk)
    have hone : (1 : ℚ) ≤ |(k : ℚ) - m| := by exact_mod_cast Int.one_le_abs hne
    have hapart : (2 : ℚ) ^ q ≤ |(k : ℚ) * 2 ^ q - m * 2 ^ q| := by
      rw [← sub_mul, abs_mul, abs_of_pos (two_zpow_pos q)]
      exact le_mul_of_one_le_left (two_zpow_pos q).le hone
    have htriangle : |(k : ℚ) * 2 ^ q - m * 2 ^ q| ≤ |(k : ℚ) * 2 ^ q - x| + |(m : ℚ) * 2 ^ q - x| := by
      rw [abs_sub_comm ((m : ℚ) * 2 ^ q) x]
      exact abs_sub_le _ _ _
    linarith [h.near]

/-! ## The unit of a ratio in a format -/

/-- The exponent of the least unit of a format: that of its subnormal numbers. -/
def leastUnit (fmt : FloatFmt) : ℤ := fmt.minExp - ((fmt.precision : ℤ) - 1)

/-- `2 ^ q` is the unit of `x`'s own binade in a format, or the least one. -/
structure IsUnitOf (fmt : FloatFmt) (x : ℚ) (q : ℤ) : Prop where
  least : leastUnit fmt ≤ q
  binade : q = leastUnit fmt ∨ (2 : ℚ) ^ (q + fmt.precision - 1) ≤ x
  below : x < 2 ^ (q + fmt.precision)

/-- A positive natural number is in the binade of its `log2`. -/
theorem log2_binade {n : Nat} (hn : n ≠ 0) :
    (2 : ℚ) ^ (Nat.log2 n : ℤ) ≤ n ∧ (n : ℚ) < 2 ^ ((Nat.log2 n : ℤ) + 1) := by
  constructor
  · exact_mod_cast Nat.log2_self_le hn
  · exact_mod_cast Nat.lt_log2_self (n := n)

/-- `ratioExponent` is the exponent of the ratio's binade. -/
theorem ratioExponent_binade {n d : Nat} (hn : n ≠ 0) (hd : 0 < d) :
    (2 : ℚ) ^ ratioExponent n d ≤ (n : ℚ) / d ∧ (n : ℚ) / d < 2 ^ (ratioExponent n d + 1) := by
  have hd' : (0 : ℚ) < d := by exact_mod_cast hd
  obtain ⟨hnlo, hnhi⟩ := log2_binade hn
  obtain ⟨hdlo, hdhi⟩ := log2_binade hd.ne'
  have htest : n * 2 ^ (-((Nat.log2 n : ℤ) - Nat.log2 d)).toNat ≥
      d * 2 ^ ((Nat.log2 n : ℤ) - Nat.log2 d).toNat ↔
        (2 : ℚ) ^ ((Nat.log2 n : ℤ) - Nat.log2 d) ≤ (n : ℚ) / d := by
    have hpos : (0 : ℚ) < (d * 2 ^ ((Nat.log2 n : ℤ) - Nat.log2 d).toNat : ℕ) := by
      exact_mod_cast Nat.mul_pos hd (Nat.two_pow_pos _)
    rw [← one_le_div (two_zpow_pos _), ← scaled_ratio, one_le_div hpos]
    exact Nat.cast_le.symm
  rw [ratioExponent]
  split
  case isTrue hge =>
    refine ⟨htest.1 hge, ?_⟩
    rw [div_lt_iff₀ hd']
    calc (n : ℚ) < 2 ^ ((Nat.log2 n : ℤ) + 1) := hnhi
      _ = 2 ^ ((Nat.log2 n : ℤ) - Nat.log2 d + 1) * 2 ^ (Nat.log2 d : ℤ) := by
        rw [← two_zpow_add]
        congr 1
        ring
      _ ≤ 2 ^ ((Nat.log2 n : ℤ) - Nat.log2 d + 1) * d :=
        mul_le_mul_of_nonneg_left hdlo (two_zpow_pos _).le
  case isFalse hlt =>
    rw [sub_add_cancel]
    refine ⟨?_, not_le.1 (mt htest.2 hlt)⟩
    rw [le_div_iff₀ hd']
    calc (2 : ℚ) ^ ((Nat.log2 n : ℤ) - Nat.log2 d - 1) * d
        ≤ 2 ^ ((Nat.log2 n : ℤ) - Nat.log2 d - 1) * 2 ^ ((Nat.log2 d : ℤ) + 1) :=
        mul_le_mul_of_nonneg_left hdhi.le (two_zpow_pos _).le
      _ = 2 ^ (Nat.log2 n : ℤ) := by
        rw [← two_zpow_add]
        congr 1
        ring
      _ ≤ n := hnlo

/-- The model's unit of a positive ratio is that of its binade. -/
theorem isUnitOf_unitExponent (fmt : FloatFmt) {n d : Nat} (hn : n ≠ 0) (hd : 0 < d) :
    IsUnitOf fmt ((n : ℚ) / d) (unitExponent fmt n d) := by
  obtain ⟨hlo, hhi⟩ := ratioExponent_binade hn hd
  refine ⟨?_, ?_, hhi.trans_le (zpow_le_zpow_right₀ one_le_two ?_)⟩ <;>
    simp only [unitExponent, leastUnit]
  · omega
  · rcases le_total (ratioExponent n d) fmt.minExp with h | h
    · rw [max_eq_right h]
      exact .inl rfl
    · rw [max_eq_left h]
      refine .inr (le_of_eq_of_le (congrArg _ ?_) hlo)
      omega
  · omega

/-- The unit of zero is the least one. -/
theorem isUnitOf_zero (fmt : FloatFmt) : IsUnitOf fmt 0 (leastUnit fmt) :=
  ⟨le_rfl, .inl rfl, two_zpow_pos _⟩

/-! ## The nearest number of a format -/

section Nearest

variable {fmt : FloatFmt} {x : ℚ} {q : ℤ} {m : ℕ} (hu : IsUnitOf fmt x q) (hm : RoundsTo x q m)
include hu hm

/-- The mantissa has at most the format's bits, or is the next power of two. -/
theorem RoundsTo.le_two_pow : m ≤ 2 ^ fmt.precision := by
  have htop : ((2 ^ fmt.precision : ℕ) : ℚ) * 2 ^ q = 2 ^ (q + fmt.precision) := by
    rw [two_zpow_add, zpow_natCast, mul_comm]
    norm_cast
  have hnear := hm.nearest (2 ^ fmt.precision)
  rw [htop, abs_of_pos (sub_pos.2 hu.below), ← htop] at hnear
  have hle : (m : ℚ) * 2 ^ q ≤ (2 ^ fmt.precision : ℕ) * 2 ^ q := by
    linarith [le_abs_self ((m : ℚ) * 2 ^ q - x)]
  exact_mod_cast le_of_mul_le_mul_right hle (two_zpow_pos q)

/-- No number of the format, with no bound on its exponent above, is nearer than the rounding: with a
larger unit it is a multiple of this one, and with a smaller unit it is below the binade of `x`. -/
theorem RoundsTo.nearest_of_format (hp : 1 ≤ fmt.precision) {m' : ℕ} {q' : ℤ}
    (hm' : m' ≤ 2 ^ fmt.precision) (hq' : leastUnit fmt ≤ q') :
    |(m : ℚ) * 2 ^ q - x| ≤ |(m' : ℚ) * 2 ^ q' - x| := by
  rcases le_or_gt q q' with hle | hlt
  · obtain ⟨k, rfl⟩ := Int.le.dest hle
    have hmultiple : (m' : ℚ) * 2 ^ (q + k) = ((m' * 2 ^ k : ℕ) : ℚ) * 2 ^ q := by
      rw [two_zpow_add, zpow_natCast]
      push_cast
      ring
    rw [hmultiple]
    exact hm.nearest _
  · have hbinade : (2 : ℚ) ^ (q + fmt.precision - 1) ≤ x :=
      hu.binade.resolve_left fun h => by omega
    have hbottom : ((2 ^ (fmt.precision - 1) : ℕ) : ℚ) * 2 ^ q = 2 ^ (q + fmt.precision - 1) := by
      rw [show q + fmt.precision - 1 = ((fmt.precision - 1 : ℕ) : ℤ) + q by omega, two_zpow_add,
        zpow_natCast]
      norm_cast
    have hsmall : (m' : ℚ) * 2 ^ q' ≤ 2 ^ (q + fmt.precision - 1) := by
      calc (m' : ℚ) * 2 ^ q' ≤ 2 ^ (fmt.precision : ℤ) * 2 ^ q' :=
            mul_le_mul_of_nonneg_right (by exact_mod_cast hm') (two_zpow_pos q').le
        _ = 2 ^ (fmt.precision + q') := (two_zpow_add _ _).symm
        _ ≤ 2 ^ (q + fmt.precision - 1) := zpow_le_zpow_right₀ one_le_two (by omega)
    calc |(m : ℚ) * 2 ^ q - x| ≤ |((2 ^ (fmt.precision - 1) : ℕ) : ℚ) * 2 ^ q - x| := hm.nearest _
      _ = x - 2 ^ (q + fmt.precision - 1) := by
        rw [hbottom, abs_sub_comm, abs_of_nonneg (sub_nonneg.2 hbinade)]
      _ ≤ x - (m' : ℚ) * 2 ^ q' := sub_le_sub_left hsmall x
      _ ≤ |(m' : ℚ) * 2 ^ q' - x| := by
        rw [abs_sub_comm]
        exact le_abs_self _

end Nearest

/-- The model's test for an infinity: the number is past the largest normal binade. -/
theorem overflow_iff (m : ℕ) (q maxExp : ℤ) :
    0 < m ∧ (Nat.log2 m : ℤ) + q > maxExp ↔ (2 : ℚ) ^ (maxExp + 1) ≤ (m : ℚ) * 2 ^ q := by
  rcases Nat.eq_zero_or_pos m with rfl | hpos
  · simp [two_zpow_pos]
  · obtain ⟨hlo, hhi⟩ := log2_binade hpos.ne'
    refine ⟨fun ⟨_, hexp⟩ => ?_, fun hover => ⟨hpos, ?_⟩⟩
    · calc (2 : ℚ) ^ (maxExp + 1) ≤ 2 ^ ((Nat.log2 m : ℤ) + q) :=
            zpow_le_zpow_right₀ one_le_two (by omega)
        _ = 2 ^ (Nat.log2 m : ℤ) * 2 ^ q := two_zpow_add _ _
        _ ≤ m * 2 ^ q := mul_le_mul_of_nonneg_right hlo (two_zpow_pos q).le
    · have hlt : (2 : ℚ) ^ (maxExp + 1) < 2 ^ ((Nat.log2 m : ℤ) + 1 + q) := by
        rw [two_zpow_add _ q]
        exact hover.trans_lt (mul_lt_mul_of_pos_right hhi (two_zpow_pos q))
      have := (zpow_lt_zpow_iff_right₀ (one_lt_two : (1 : ℚ) < 2)).1 hlt
      omega

/-- What `roundRatio` answers at a positive ratio, by the value of the mantissa in its unit. -/
theorem roundRatio_pos (fmt : FloatFmt) (negative : Bool) {n : Nat} (hn : n ≠ 0) (d : Nat) :
    roundRatio fmt negative n d =
      if (2 : ℚ) ^ (fmt.maxExp + 1) ≤ (roundMantissa fmt n d : ℚ) * 2 ^ unitExponent fmt n d then
        .infinite negative
      else if roundMantissa fmt n d = 2 ^ fmt.precision then
        .finite negative (2 ^ (fmt.precision - 1)) (unitExponent fmt n d + 1)
      else .finite negative (roundMantissa fmt n d) (unitExponent fmt n d) := by
  rw [roundRatio, if_neg hn]
  exact if_congr (overflow_iff _ _ _) rfl rfl

/-- The float views round the registers that the host reads (42_record_views.md R126, R128). -/
theorem floatViews_of_doneOk {s : State} (fmt : FloatFmt) (hs : s.status = .doneOk)
    (ho : s.record.occupancy ≠ some 3) :
    s.viewCelsiusFloat fmt = .ok (s.record.temperature.map (fun v =>
      roundRatio fmt (decide (sext16 v < 0)) (sext16 v).natAbs 10)) ∧
    s.viewVoltsFloat fmt = .ok (s.record.batteryMv.map (fun v =>
      roundRatio fmt false v.toNat 1000)) := by
  obtain ⟨o, -, hr⟩ := State.readRecord_of_doneOk hs ho
  rw [State.viewCelsiusFloat, State.viewVoltsFloat, hr]
  exact ⟨by cases s.record.temperature <;> rfl, by cases s.record.batteryMv <;> rfl⟩

/-- Settles O47: the mantissa is the rounding of the ratio in the unit of its binade; zero is its own
rounding in the least unit. -/
theorem floatViewsRoundToNearestEven : Obligations.FloatViewsRoundToNearestEven := by
  refine ⟨fun s fmt hs ho => floatViews_of_doneOk fmt hs ho, fun fmt negative d => if_pos rfl,
    fun fmt negative n d hp hd => ?_⟩
  obtain ⟨m, q, hu, hm, hround⟩ : ∃ (m : ℕ) (q : ℤ), IsUnitOf fmt ((n : ℚ) / d) q ∧
      RoundsTo ((n : ℚ) / d) q m ∧ roundRatio fmt negative n d =
        if (2 : ℚ) ^ (fmt.maxExp + 1) ≤ (m : ℚ) * 2 ^ q then .infinite negative
        else if m = 2 ^ fmt.precision then .finite negative (2 ^ (fmt.precision - 1)) (q + 1)
        else .finite negative m q := by
    by_cases hn : n = 0
    · subst hn
      rw [Nat.cast_zero, zero_div]
      refine ⟨0, leastUnit fmt, isUnitOf_zero fmt, roundsTo_zero _, ?_⟩
      rw [if_neg (by simp [two_zpow_pos]), if_neg (Nat.two_pow_pos _).ne]
      exact if_pos rfl
    · exact ⟨_, _, isUnitOf_unitExponent fmt hn hd, roundsTo_roundNearestEven hd _,
        roundRatio_pos fmt negative hn d⟩
  exact ⟨m, q, hu.least, hu.binade, hu.below, hm.near, hm.even, hm.le_two_pow hu,
    fun m' q' hm' hq' => hm.nearest_of_format hu hp hm' hq', hround⟩

end Sys2Proof.Machine
